-- ==== Sys2Proof/Word.lean ====
section
/-! DEFINITION. The bit-vector types of the fitz-9 CORE. Every value is unsigned (00_scope.md R7). -/

namespace Sys2Proof

/-- A byte: a register, a memory byte, an immediate `kk` (00_scope.md R6). -/
abbrev Byte := BitVec 8

/-- A 16-bit word: an opcode, the ProgramCounter, a stack entry (00_scope.md R6). -/
abbrev Word := BitVec 16

/-- A register index, the 4-bit field `x` or `y` of an opcode (10_state.md R13, 30_encoding.md R47). -/
abbrev RegIdx := BitVec 4

/-- The 12-bit field `nnn` of an opcode (30_encoding.md R47), and a byte address inside memory (20_memory.md R32). -/
abbrev Addr := BitVec 12

end Sys2Proof
end

