-- ==== Sys2Proof/Config.lean ====
section
/-! DEFINITION. The fixed parameters of the hardware (00_scope.md R6). None is left as a model argument, and there is no
free value: "Nothing in the core draws a value" (00_scope.md R12). -/

namespace Sys2Proof.Config

/-- `MEM_BYTES`: the memory holds addresses 0x000 to 0xFFF (00_scope.md R6, 20_memory.md R32). -/
abbrev memBytes : Nat := 4096

/-- The last address at which a fetch is in range: both its bytes are in memory (20_memory.md R38). -/
abbrev lastFetch : Nat := 0xFFE

/-- `NREGS` (00_scope.md R6). -/
abbrev numRegs : Nat := 16

/-- `FLAG_INDEX`: VF is register 15 (00_scope.md R6, 10_state.md R13). -/
abbrev flagIndex : RegIdx := 0xF#4

/-- `STACK_DEPTH` (00_scope.md R6, 10_state.md R21). -/
abbrev stackDepth : Nat := 16

/-- `RESET_PC` (00_scope.md R6, 10_state.md R31). -/
abbrev resetPc : Word := 0x0000#16

/-- What a byte of memory holds after reset, and so what an unlisted address reads as (10_state.md R31). -/
abbrev resetByte : Byte := 0x00#8

end Sys2Proof.Config
end

