-- ==== Sys2Proof/Syntax.lean ====
section
/-! DEFINITION. The instructions: one constructor for each row of spec/opcode_table.json (30_encoding.md R52).
Operands are the bit fields of the opcode (30_encoding.md R47, R49, R54). -/

namespace Sys2Proof

/-- The fourteen instructions (00_scope.md R3). -/
inductive Instr where
  /-- `0000` (41_system.md R71). -/
  | halt
  /-- `00E0` (41_system.md R72). -/
  | cls
  /-- `00EE` (42_control_transfer.md R73). -/
  | ret
  /-- `1nnn` (42_control_transfer.md R74). -/
  | jp (nnn : Addr)
  /-- `2nnn` (42_control_transfer.md R75). -/
  | call (nnn : Addr)
  /-- `3xkk` (43_skip.md R77). -/
  | seImm (x : RegIdx) (kk : Byte)
  /-- `4xkk` (43_skip.md R78). -/
  | sneImm (x : RegIdx) (kk : Byte)
  /-- `5xy0` (43_skip.md R79). -/
  | seReg (x y : RegIdx)
  /-- `6xkk` (44_immediate.md R80). -/
  | ldImm (x : RegIdx) (kk : Byte)
  /-- `7xkk` (44_immediate.md R81). -/
  | addImm (x : RegIdx) (kk : Byte)
  /-- `8xy4` (45_alu_register.md R85). -/
  | addReg (x y : RegIdx)
  /-- `8xy5` (45_alu_register.md R86). -/
  | sub (x y : RegIdx)
  /-- `8xy7` (45_alu_register.md R87). -/
  | subn (x y : RegIdx)
  /-- `8xyE` (45_alu_register.md R88). The `y` field may hold any value and is not read (30_encoding.md R54).
  DESIGN CHOICE (log 7): the syntax keeps it, so that no bit of the opcode is dropped. Safe: no meaning reads it. -/
  | shl (x y : RegIdx)
deriving DecidableEq, Repr

end Sys2Proof
end

