-- ==== Sys2Proof/Decode.lean ====
section
/-! DEFINITION. The decoder (30_encoding.md R47 to R54), total on every 16-bit opcode and on any bytes, and the encoder
written from the same encodings. A word of the unknown space decodes to the tag `unknown` and to no instruction
(30_encoding.md R53); running it takes the UnknownOpcode fault (60_exceptions.md R96), which is the step's business. -/

namespace Sys2Proof

/-! ### Fields -/

/-- `c = op[15:12]` (30_encoding.md R47). -/
def classField (op : Word) : BitVec 4 := op.extractLsb' 12 4

/-- `x = op[11:8]` (30_encoding.md R47). -/
def xField (op : Word) : RegIdx := op.extractLsb' 8 4

/-- `y = op[7:4]` (30_encoding.md R47). -/
def yField (op : Word) : RegIdx := op.extractLsb' 4 4

/-- `d = op[3:0]` (30_encoding.md R47). -/
def dField (op : Word) : BitVec 4 := op.extractLsb' 0 4

/-- `nnn = op[11:0]` (30_encoding.md R47). -/
def nnnField (op : Word) : Addr := op.extractLsb' 0 12

/-- `kk = op[7:0]` (30_encoding.md R47). -/
def kkField (op : Word) : Byte := op.extractLsb' 0 8

/-! ### The decoder -/

/-- The operation tags (30_encoding.md R51): one for each row of the table and the explicit default. -/
inductive OpTag where
  | halt | cls | ret | jp | call | seImm | sneImm | seReg | ldImm | addImm | addReg | sub | subn | shl | unknown
deriving DecidableEq, Repr

/-- The decoder's output `{op, x, y, d, nnn, kk, raw}` (30_encoding.md R50). -/
structure Descriptor where
  op  : OpTag
  x   : RegIdx
  y   : RegIdx
  d   : BitVec 4
  nnn : Addr
  kk  : Byte
  raw : Word
deriving DecidableEq, Repr

/-- The operation of the patterns keyed on the class `c` and, in classes 5 and 8, on `d` (30_encoding.md R52). -/
def classTag (c d : BitVec 4) : OpTag :=
  if c = 0x1#4 then .jp
  else if c = 0x2#4 then .call
  else if c = 0x3#4 then .seImm
  else if c = 0x4#4 then .sneImm
  else if c = 0x5#4 ∧ d = 0x0#4 then .seReg
  else if c = 0x6#4 then .ldImm
  else if c = 0x7#4 then .addImm
  else if c = 0x8#4 ∧ d = 0x4#4 then .addReg
  else if c = 0x8#4 ∧ d = 0x5#4 then .sub
  else if c = 0x8#4 ∧ d = 0x7#4 then .subn
  else if c = 0x8#4 ∧ d = 0xE#4 then .shl
  else .unknown

/-- The operation an opcode selects, test by test as the spec writes them (30_encoding.md R52): the three exact values, then
the classes. -/
def opTag (op : Word) : OpTag :=
  if op = 0x0000#16 then .halt
  else if op = 0x00E0#16 then .cls
  else if op = 0x00EE#16 then .ret
  else classTag (classField op) (dField op)

/-- The decoder: pure and total on every 16-bit opcode, all fields extracted whatever the operation
(30_encoding.md R48, R50). -/
def decode (op : Word) : Descriptor :=
  { op := opTag op, x := xField op, y := yField op, d := dField op, nnn := nnnField op, kk := kkField op, raw := op }

/-- The instruction a descriptor stands for, with the operands its form uses (30_encoding.md R54); none for `unknown`. -/
def Descriptor.instr (D : Descriptor) : Option Instr :=
  match D.op with
  | .halt    => some .halt
  | .cls     => some .cls
  | .ret     => some .ret
  | .jp      => some (.jp D.nnn)
  | .call    => some (.call D.nnn)
  | .seImm   => some (.seImm D.x D.kk)
  | .sneImm  => some (.sneImm D.x D.kk)
  | .seReg   => some (.seReg D.x D.y)
  | .ldImm   => some (.ldImm D.x D.kk)
  | .addImm  => some (.addImm D.x D.kk)
  | .addReg  => some (.addReg D.x D.y)
  | .sub     => some (.sub D.x D.y)
  | .subn    => some (.subn D.x D.y)
  | .shl     => some (.shl D.x D.y)
  | .unknown => none

/-- The instruction of an opcode, or none where the opcode is of the unknown space (30_encoding.md R53). -/
def decodeWord (op : Word) : Option Instr := (decode op).instr

/-- The opcode made of two fetched bytes: the byte at the lower address is the high one (20_memory.md R35, D4).
UNVERIFIED (log 9): the spec's own decision; unsafe if the hardware stores the low byte first. -/
def opcodeOf (hi lo : Byte) : Word := hi ++ lo

/-- Decode the instruction that the bytes begin with; the rest of the bytes is returned. None where fewer than two bytes
are there or the opcode is unknown. Every instruction is two bytes (30_encoding.md R56). -/
def decodeBytes (bytes : List Byte) : Option (Instr × List Byte) :=
  match bytes with
  | hi :: lo :: rest => (decodeWord (opcodeOf hi lo)).map fun i => (i, rest)
  | _ => none

/-! ### The encoder -/

/-- The opcode of an instruction, field by field from its encoding in the table (30_encoding.md R52). -/
def encode (i : Instr) : Word :=
  match i with
  | .halt        => 0x0000#16
  | .cls         => 0x00E0#16
  | .ret         => 0x00EE#16
  | .jp nnn      => 0x1#4 ++ nnn
  | .call nnn    => 0x2#4 ++ nnn
  | .seImm x kk  => 0x3#4 ++ x ++ kk
  | .sneImm x kk => 0x4#4 ++ x ++ kk
  | .seReg x y   => 0x5#4 ++ x ++ y ++ 0x0#4
  | .ldImm x kk  => 0x6#4 ++ x ++ kk
  | .addImm x kk => 0x7#4 ++ x ++ kk
  | .addReg x y  => 0x8#4 ++ x ++ y ++ 0x4#4
  | .sub x y     => 0x8#4 ++ x ++ y ++ 0x5#4
  | .subn x y    => 0x8#4 ++ x ++ y ++ 0x7#4
  | .shl x y     => 0x8#4 ++ x ++ y ++ 0xE#4

/-- The bytes of an opcode as memory holds them, high byte first (20_memory.md R35, D4). -/
def opcodeBytes (op : Word) : List Byte := [op.extractLsb' 8 8, op.extractLsb' 0 8]

/-! ### The host's reading of the opcode table -/

/-- The opcode whose bits are `w`, numbered as spec/opcode_table.json numbers them; every bit from `nbits` up is 0. -/
def tableOpcode (nbits w : Nat) : Word := BitVec.ofNat 16 (w % 2 ^ nbits)

/-- What the decoder reads from that opcode, laid out in bytes as memory holds it. -/
def decodeTableWord (nbits w : Nat) : Option Instr :=
  (decodeBytes (opcodeBytes (tableOpcode nbits w))).map Prod.fst

end Sys2Proof
end

