-- ==== Sys2Proof/Machine/State.lean ====
section
/-! DEFINITION. The whole state of the core as plain data (10_state.md), and the state after reset. -/

namespace Sys2Proof.Machine

/-- The run status (10_state.md R25, D8). -/
inductive RunStatus where
  /-- After reset: the host may load memory; no step runs. -/
  | idle
  /-- Every step request executes one instruction. -/
  | running
  /-- Terminal: a HALT was executed. -/
  | halted
  /-- Terminal: one of the four fatal conditions. -/
  | faulted
deriving DecidableEq, Repr

/-- The kind of the last fault, `fault_kind` (10_state.md R26, 60_exceptions.md R93). -/
inductive FaultKind where
  /-- Code 0: no fault recorded. -/
  | noFault
  /-- Code 1: CALL with a full call stack (60_exceptions.md R94). -/
  | stackOverflow
  /-- Code 2: RET with an empty call stack (60_exceptions.md R95). -/
  | stackUnderflow
  /-- Code 3: an opcode of the unknown space (60_exceptions.md R96). -/
  | unknownOpcode
  /-- Code 4: a fetch at 0xFFF or above (60_exceptions.md R97). -/
  | addressOutOfRange
deriving DecidableEq, Repr

/-- The fault record (10_state.md R26, D9). -/
structure FaultRecord where
  /-- `fault_kind`. -/
  kind        : FaultKind
  /-- `fault_addr`: the address of the faulting instruction or fetch. -/
  addr        : Word
  /-- `fault_opcode`: the raw opcode, when one was fetched. -/
  opcode      : Word
  /-- `fault_opcode_valid`. -/
  opcodeValid : Bool
deriving DecidableEq, Repr

/-- The record with every field 0 (10_state.md R31). -/
def FaultRecord.zero : FaultRecord :=
  { kind := .noFault, addr := 0x0000#16, opcode := 0x0000#16, opcodeValid := false }

/-- Memory: the bytes that differ from the reset byte 0x00, at strictly rising addresses (20_memory.md R32; reset
contents 10_state.md R31). -/
abbrev Memory := List Host.Cell

/-- The canonical form of the cells at addresses from `lo` up: rising, inside memory, none equal to the reset byte. -/
def Memory.wfFrom (lo : Nat) (m : Memory) : Bool :=
  match m with
  | [] => true
  | (k, v) :: rest =>
    decide (lo ≤ k) && decide (k < Config.memBytes) && (v != Config.resetByte) && Memory.wfFrom (k + 1) rest

/-- The canonical form of a memory. -/
def Memory.wf (m : Memory) : Bool := Memory.wfFrom 0 m

/-- The state of the core. Between steps there is nothing else (10_state.md R27, R29). -/
structure State where
  /-- V0..VF, VF at index 15 (10_state.md R13). -/
  regs          : Vector Byte 16
  /-- The ProgramCounter (10_state.md R18). -/
  pc            : Word
  /-- stack[0..15], return addresses (10_state.md R21). -/
  stack         : Vector Word 16
  /-- SP, the count of live entries, in [0, 16] (10_state.md R21). DESIGN CHOICE (log 6): a number 0..16, not a bit
  vector of 5 bits; unsafe only for the values 17..31 that R21 excludes. -/
  sp            : Fin 17
  /-- `status` (10_state.md R25). -/
  status        : RunStatus
  /-- The fault record, valid only while `status` is Faulted (10_state.md R26). -/
  fault         : FaultRecord
  /-- The 4096 bytes of memory (10_state.md R28). -/
  mem           : Memory
  /-- THE MODEL'S OWN FIELD: how many display-clear events the core has emitted since reset. The request is an output event,
  not state of the core (10_state.md R30); "a model without a display treats CLS as a no-op that records one display-clear
  event" (41_system.md R72). DESIGN CHOICE (log 1): the record is this count; safe, no instruction and no command reads it. -/
  displayClears : Nat
deriving DecidableEq, Repr

/-- The reasons a step could stop the model. There are none: the four fatal conditions of the spec end in a state whose status is
Faulted (60_exceptions.md R91), which is a next state (log 3), and nothing else faults (60_exceptions.md R90). Nobody
raises one. Safe: the type has no value, so no behaviour is hidden in it. -/
inductive Fault where
deriving DecidableEq, Repr

/-- The reasons the model could have no meaning for an instruction. -/
inductive Refusal where
  /-- Raised only by an arm of `exec` whose instruction has no meaning yet; no arm raises it. Safe: the model stops. -/
  | notModelled (mnemonic : String)
deriving DecidableEq, Repr

/-- The machine right after reset (10_state.md R31; 70_reset_and_hazards.md R108). `displayClears` is the model's own field:
DESIGN CHOICE 0 (log 2), unsafe for a claim about the number of events before any step. -/
def State.reset : State :=
  { regs := Vector.replicate 16 0x00#8
    pc := Config.resetPc
    stack := Vector.replicate 16 0x0000#16
    sp := 0
    status := .idle
    fault := FaultRecord.zero
    mem := []
    displayClears := 0 }

end Sys2Proof.Machine
end

