-- ==== Sys2Proof/Machine/Ops.lean ====
section
/-! DEFINITION. The named operations over the state (00_scope.md R9): memory, registers, the ProgramCounter, fetch, the call
stack, the display-clear request, fault entry and the host's way out of a fault. -/

namespace Sys2Proof.Machine

/-! ### Memory -/

/-- `MemRead(a, 1)` (00_scope.md R9, 20_memory.md R39): the byte stored at `a`; an address nothing has written reads the reset
byte 0x00 (10_state.md R31). Callers ask only for `a <= 0xFFF`. -/
def Memory.read (m : Memory) (a : Nat) : Byte :=
  match m with
  | [] => Config.resetByte
  | (k, v) :: rest => if k = a then v else Memory.read rest a

/-- `MemWrite(a, 1, v)` (00_scope.md R9, 20_memory.md R46): keeps the canonical form, so writing the reset byte removes the
entry. Callers ask only for `a <= 0xFFF`. -/
def Memory.write (m : Memory) (a : Nat) (v : Byte) : Memory :=
  match m with
  | [] => if v = Config.resetByte then [] else [(a, v)]
  | (k, b) :: rest =>
    if k < a then (k, b) :: Memory.write rest a v
    else if k = a then (if v = Config.resetByte then rest else (a, v) :: rest)
    else if v = Config.resetByte then (k, b) :: rest
    else (a, v) :: (k, b) :: rest

/-- Write the bytes at rising addresses from `base` (20_memory.md R46). -/
def Memory.writeBytes (m : Memory) (base : Nat) (bytes : List Byte) : Memory :=
  match bytes with
  | [] => m
  | b :: rest => Memory.writeBytes (m.write base b) (base + 1) rest

/-! ### Registers -/

/-- `V[i]` (00_scope.md R9, 10_state.md R17). -/
def State.reg (s : State) (i : RegIdx) : Byte := s.regs[i.toNat]

/-- `V[i] <- v` (00_scope.md R9, 10_state.md R17). -/
def State.setReg (s : State) (i : RegIdx) (v : Byte) : State := { s with regs := s.regs.set i.toNat v }

/-! ### The ProgramCounter and the run status -/

/-- `pc <- target` (00_scope.md R9). -/
def State.setPc (s : State) (target : Word) : State := { s with pc := target }

/-- `pc <- pc + 2`: the fetch advance, and the extra advance of a true skip (40_fetch_execute_cycle.md R62, R65). -/
def State.advance (s : State) : State := s.setPc (s.pc + 2#16)

/-- `status <- v`. -/
def State.setStatus (s : State) (v : RunStatus) : State := { s with status := v }

/-! ### Fetch -/

/-- `Fetch(A)` at `A = pc` (40_fetch_execute_cycle.md R61): the opcode, or none where the fetch is out of range, and then no
byte is read (20_memory.md R38). No alignment is needed (20_memory.md R37). UNVERIFIED (log 10): where the range is checked and
the missing alignment rule are the spec's own decisions; unsafe if the hardware checks elsewhere. -/
def State.fetch (s : State) : Option Word :=
  if s.pc.toNat ≤ Config.lastFetch then
    some (opcodeOf (s.mem.read s.pc.toNat) (s.mem.read (s.pc.toNat + 1)))
  else none

/-! ### The call stack -/

/-- `Push(v)` (10_state.md R22); none where the stack is full. -/
def State.push (s : State) (v : Word) : Option State :=
  if h : s.sp.val < 16 then
    some { s with stack := s.stack.set s.sp.val v, sp := ⟨s.sp.val + 1, by omega⟩ }
  else none

/-- `Pop()` (10_state.md R23): the most recent entry and the state with SP lowered; none where the stack is empty. The entry
keeps its value (10_state.md R24). UNVERIFIED (log 15): the spec's own decision; unsafe for a claim about a dead entry. -/
def State.pop (s : State) : Option (Word × State) :=
  if h : 0 < s.sp.val then
    some (s.stack[s.sp.val - 1], { s with sp := ⟨s.sp.val - 1, by omega⟩ })
  else none

/-! ### The display-clear request -/

/-- `EmitDisplayClear()` (00_scope.md R9, 41_system.md R72): one event for the display collaborator. The core does not wait.
UNVERIFIED (log 18): the spec's own decision; unsafe if a real display could stall or fail the core. -/
def State.emitDisplayClear (s : State) : State := { s with displayClears := s.displayClears + 1 }

/-! ### Fault entry, and the way out -/

/-- `raise Fault(kind, addr, opcode)` (60_exceptions.md R91), applied to the state at the START of the step, so that every write of
the step is discarded and pc stays `A` (40_fetch_execute_cycle.md R68). `addr` is always `A`. UNVERIFIED (log 14): that the
fetch advance is undone is the spec's own decision for three of the four faults; unsafe if the hardware leaves pc at `A + 2`. -/
def State.raiseFault (s : State) (kind : FaultKind) (opcode : Option Word) : State :=
  { s with
    status := .faulted
    fault := { kind := kind, addr := s.pc, opcode := opcode.getD 0x0000#16, opcodeValid := opcode.isSome } }

/-- What the host's `SkipAndContinue` does to a Faulted state (60_exceptions.md R105): the only way on from a fault, since there is
no return-from-fault instruction (60_exceptions.md R100). UNVERIFIED (log 14): the spec's own decision; unsafe for a claim about a
host that continues otherwise. -/
def State.skipFault (s : State) : State :=
  { s with pc := s.fault.addr + 2#16, fault := FaultRecord.zero, status := .running }

end Sys2Proof.Machine
end

