-- ==== Sys2Proof/Machine/Flags.lean ====
section
/-! DEFINITION. The alu_core (45_alu_register.md R82, R83; 43_skip.md R76): results and flags, each computed from the
mathematical value before truncation (00_scope.md R8). -/

namespace Sys2Proof.Machine

/-- A condition as the 8-bit flag value 0 or 1 (45_alu_register.md R84). -/
def flagByte (c : Bool) : Byte := if c then 0x01#8 else 0x00#8

/-- The result of `ADD8` and `ADDC`: `(a + b) mod 256` (45_alu_register.md R82). -/
def addResult (a b : Byte) : Byte := BitVec.ofNat 8 (a.toNat + b.toNat)

/-- The flag of `ADDC`: 1 if `a + b > 255`, else 0 (45_alu_register.md R82). -/
def carryFlag (a b : Byte) : Byte := flagByte (decide (a.toNat + b.toNat > 255))

/-- The result of `SUBB`, `(a - b) mod 256`, and with its operands exchanged of `SUBNB` (45_alu_register.md R82). -/
def subResult (a b : Byte) : Byte := BitVec.ofInt 8 ((a.toNat : Int) - (b.toNat : Int))

/-- The flag of `SUBB`: 1 if `a < b`, else 0; with its operands exchanged, of `SUBNB` (45_alu_register.md R82). -/
def borrowFlag (a b : Byte) : Byte := flagByte (decide (a.toNat < b.toNat))

/-- The result of `SHL1`: `(a * 2) mod 256` (45_alu_register.md R82). -/
def shlResult (a : Byte) : Byte := BitVec.ofNat 8 (a.toNat * 2)

/-- The flag of `SHL1`: `a[7]` (45_alu_register.md R82). UNVERIFIED (log 21): the source asks for confirmation of this flag
(90_conflicts.md C6); unsafe for a claim about the SHL flag. -/
def shlFlag (a : Byte) : Byte := flagByte (a.getLsbD 7)

/-- The comparator `EQ(a, b)` (43_skip.md R76). -/
def eqBytes (a b : Byte) : Bool := decide (a = b)

end Sys2Proof.Machine
end

