-- ==== Sys2Proof/Machine/Operands.lean ====
section
/-! DEFINITION. The operand forms (30_encoding.md R49) and the two ways an instruction delivers its outcome: the write of a result
with its flag (45_alu_register.md R84) and the choice of a skip (40_fetch_execute_cycle.md R65). A register operand is
`State.reg`; the immediate `kk` is used as it stands. -/

namespace Sys2Proof.Machine

/-- The address operand: `nnn` becomes a ProgramCounter value as `zext_16(nnn)` (30_encoding.md R49). -/
def addrOperand (nnn : Addr) : Word := nnn.setWidth 16

/-- Write the result to `V[x]` and then the flag to VF, "as its final step, overwriting any prior value"
(45_alu_register.md R84, 10_state.md R16). -/
def State.writeResultAndFlag (s : State) (x : RegIdx) (result flag : Byte) : State :=
  (s.setReg x result).setReg Config.flagIndex flag

/-- The extra advance of a skip whose condition holds (43_skip.md R77; 40_fetch_execute_cycle.md R65). -/
def State.skipIf (s : State) (c : Bool) : State := if c then s.advance else s

end Sys2Proof.Machine
end

