-- ==== Sys2Proof/Machine/AluRegister.lean ====
section
/-! DEFINITION. Register arithmetic, class 0x8 (45_alu_register.md). Operands are read from the state at the start of the step
(10_state.md R16). UNVERIFIED (log 16): read-before-write is the spec's own decision for x = F; unsafe if the hardware reads VF
after writing `V[x]`. -/

namespace Sys2Proof.Machine

/-- ADD Vx, Vy (45_alu_register.md R85). -/
def execAddReg (x y : RegIdx) (s : State) : Host.Outcome State Fault Refusal :=
  .next (s.advance.writeResultAndFlag x (addResult (s.reg x) (s.reg y)) (carryFlag (s.reg x) (s.reg y)))

/-- SUB Vx, Vy (45_alu_register.md R86): VF is 1 on a borrow. -/
def execSub (x y : RegIdx) (s : State) : Host.Outcome State Fault Refusal :=
  .next (s.advance.writeResultAndFlag x (subResult (s.reg x) (s.reg y)) (borrowFlag (s.reg x) (s.reg y)))

/-- SUBN Vx, Vy (45_alu_register.md R87). -/
def execSubn (x y : RegIdx) (s : State) : Host.Outcome State Fault Refusal :=
  .next (s.advance.writeResultAndFlag x (subResult (s.reg y) (s.reg x)) (borrowFlag (s.reg y) (s.reg x)))

/-- SHL Vx (45_alu_register.md R88): the `y` field is not read. -/
def execShl (x : RegIdx) (s : State) : Host.Outcome State Fault Refusal :=
  .next (s.advance.writeResultAndFlag x (shlResult (s.reg x)) (shlFlag (s.reg x)))

end Sys2Proof.Machine
end

