-- ==== Sys2Proof/Machine/ControlTransfer.lean ====
section
/-! DEFINITION. Return, jump and call (42_control_transfer.md). -/

namespace Sys2Proof.Machine

/-- RET (42_control_transfer.md R73). The popped value is not checked until it is fetched. -/
def execRet (s : State) : Host.Outcome State Fault Refusal :=
  match s.advance.pop with
  | none => .next (s.raiseFault .stackUnderflow (some (encode .ret)))
  | some (target, popped) => .next (popped.setPc target)

/-- JP (42_control_transfer.md R74). -/
def execJp (nnn : Addr) (s : State) : Host.Outcome State Fault Refusal :=
  .next (s.advance.setPc (addrOperand nnn))

/-- CALL (42_control_transfer.md R75): pushes the ProgramCounter "as already advanced past the call instruction itself". -/
def execCall (nnn : Addr) (s : State) : Host.Outcome State Fault Refusal :=
  match s.advance.push s.advance.pc with
  | none => .next (s.raiseFault .stackOverflow (some (encode (.call nnn))))
  | some pushed => .next (pushed.setPc (addrOperand nnn))

end Sys2Proof.Machine
end

