-- ==== Sys2Proof/Machine/Immediate.lean ====
section
/-! DEFINITION. Immediate load and add (44_immediate.md). -/

namespace Sys2Proof.Machine

/-- LD Vx, kk (44_immediate.md R80). -/
def execLdImm (x : RegIdx) (kk : Byte) (s : State) : Host.Outcome State Fault Refusal :=
  .next (s.advance.setReg x kk)

/-- ADD Vx, kk (44_immediate.md R81): VF is not written as a flag. UNVERIFIED (log 21): the source asks whether the asymmetry is
intended (90_conflicts.md C7); unsafe for a claim that VF is kept. -/
def execAddImm (x : RegIdx) (kk : Byte) (s : State) : Host.Outcome State Fault Refusal :=
  .next (s.advance.setReg x (addResult (s.reg x) kk))

end Sys2Proof.Machine
end

