-- ==== Sys2Proof/Machine/Skip.lean ====
section
/-! DEFINITION. The conditional skips (43_skip.md). -/

namespace Sys2Proof.Machine

/-- SE Vx, kk (43_skip.md R77). -/
def execSeImm (x : RegIdx) (kk : Byte) (s : State) : Host.Outcome State Fault Refusal :=
  .next (s.advance.skipIf (eqBytes (s.reg x) kk))

/-- SNE Vx, kk (43_skip.md R78). -/
def execSneImm (x : RegIdx) (kk : Byte) (s : State) : Host.Outcome State Fault Refusal :=
  .next (s.advance.skipIf (!eqBytes (s.reg x) kk))

/-- SE Vx, Vy (43_skip.md R79). -/
def execSeReg (x y : RegIdx) (s : State) : Host.Outcome State Fault Refusal :=
  .next (s.advance.skipIf (eqBytes (s.reg x) (s.reg y)))

end Sys2Proof.Machine
end

