-- ==== Sys2Proof/Machine/System.lean ====
section
/-! DEFINITION. The system instructions (41_system.md). A meaning is applied to the state at the START of the step, in which
pc is `A`, and makes the fetch advance itself (log 4). -/

namespace Sys2Proof.Machine

/-- HALT (41_system.md R71). -/
def execHalt (s : State) : Host.Outcome State Fault Refusal :=
  .next (s.advance.setStatus .halted)

/-- CLS (41_system.md R72). -/
def execCls (s : State) : Host.Outcome State Fault Refusal :=
  .next s.advance.emitDisplayClear

end Sys2Proof.Machine
end

