-- ==== Sys2Proof/Machine/Step.lean ====
section
/-! DEFINITION. One step (40_fetch_execute_cycle.md R59, R60, R70), and the host's placing of one instruction. -/

namespace Sys2Proof.Machine

/-- One step request. Outside Running it has no effect (40_fetch_execute_cycle.md R70; UNVERIFIED, log 17: the spec's own decision,
safe since a terminal state is left by no step). In Running: fetch, decode, execute (40_fetch_execute_cycle.md R60); a failed
fetch and an unknown opcode take their faults (60_exceptions.md R96, R97). -/
def step (s : State) : Host.Outcome State Fault Refusal :=
  match s.status with
  | .running =>
    match s.fetch with
    | none => .next (s.raiseFault .addressOutOfRange none)
    | some op =>
      match decodeWord op with
      | none => .next (s.raiseFault .unknownOpcode (some op))
      | some i => exec i s
  | _ => .next s

/-- `s` with the opcode whose bits are `w` stored where the next step fetches, and Running, so that the next step runs it. It stands
for the host's `Load` of the two bytes and `Start` (70_reset_and_hazards.md R109). Where no fetch is in range at pc, the
entry point 0x000 is taken. DESIGN CHOICE (log 5): safe, no statement about the machine rests on it. -/
def State.withFetchWord (s : State) (nbits w : Nat) : State :=
  let pc : Word := if s.pc.toNat ≤ Config.lastFetch then s.pc else Config.resetPc
  { s with
    pc := pc
    status := .running
    mem := s.mem.writeBytes pc.toNat (opcodeBytes (tableOpcode nbits w)) }

end Sys2Proof.Machine
end

