-- ==== Sys2Proof/WellFormed.lean ====
section
/-! DEFINITION. What must be checked of a term before the machine takes it.

An instruction needs no check: each operand of `Instr` is a bit vector of exactly the width its field has in the encoding
(30_encoding.md R47), and every value of every field is allowed (30_encoding.md R54), so an ill-formed instruction
cannot be written. What can be ill-formed is a program image: it may not fit in memory (20_memory.md R46). -/

namespace Sys2Proof

/-- The whole image lies inside memory: `base + n <= 4096` (20_memory.md R46, D5). -/
def imageFits (base : Nat) (bytes : List Byte) : Bool :=
  decide (base + bytes.length ≤ Config.memBytes)

end Sys2Proof
end

