-- ==== Sys2Proof/Machine/RunControl.lean ====
section
/-! DEFINITION. The host's commands (60_exceptions.md R105, 20_memory.md R46): everything the outside world can do to the core, each
between steps. -/

namespace Sys2Proof.Machine

/-- The commands that may change the state (60_exceptions.md R105). `Inspect`, which changes nothing, is `State.inspect`. -/
inductive Command where
  | reset
  | load (base : Nat) (bytes : List Byte)
  | start
  | step
  | skipAndContinue
deriving DecidableEq, Repr

/-- The core's answer to a command. -/
inductive Reply where
  /-- The command was taken; the state after it. -/
  | done (s : State)
  /-- The command was refused, with no effect on any state. -/
  | refused
deriving DecidableEq, Repr

/-- `Load(base, bytes)` in Idle (20_memory.md R46). UNVERIFIED (log 11): when a load is refused is the spec's own decision; safe, a
refused load changes nothing. -/
def State.load (s : State) (base : Nat) (bytes : List Byte) : Reply :=
  if s.status = .idle ∧ imageFits base bytes = true then .done { s with mem := s.mem.writeBytes base bytes } else .refused

/-- `Start` in Idle (60_exceptions.md R105). -/
def State.start (s : State) : Reply :=
  if s.status = .idle then .done (s.setStatus .running) else .refused

/-- `SkipAndContinue` in Faulted (60_exceptions.md R105). -/
def State.skipAndContinue (s : State) : Reply :=
  if s.status = .faulted then .done s.skipFault else .refused

/-- One command. A `Step` outside Running has no effect (40_fetch_execute_cycle.md R70). -/
def State.command (s : State) (c : Command) : Reply :=
  match c with
  | .reset => .done State.reset
  | .load base bytes => s.load base bytes
  | .start => s.start
  | .step =>
    match Sys2Proof.Machine.step s with
    | .next t => .done t
    | _ => .refused
  | .skipAndContinue => s.skipAndContinue

/-- The state after a command: a refused one changes nothing (60_exceptions.md R105). -/
def State.after (s : State) (c : Command) : State :=
  match s.command c with
  | .done t => t
  | .refused => s

/-- The state after `n` `Step` commands in a row (70_reset_and_hazards.md R109). -/
def State.steps (s : State) (n : Nat) : State :=
  match n with
  | 0 => s
  | n + 1 => (s.after .step).steps n

/-! ### Inspect -/

/-- The elements the host may read (60_exceptions.md R105). -/
inductive Element where
  | reg (i : RegIdx)
  | pc
  | sp
  | stackEntry (i : BitVec 4)
  | memory (a : Addr)
  | status
  | faultKind
  | faultAddr
  | faultOpcode
  | faultOpcodeValid
deriving DecidableEq, Repr

/-- The width in bits of an element (00_scope.md R6; 10_state.md R25, R26). -/
def Element.width (e : Element) : Nat :=
  match e with
  | .reg _ => 8
  | .pc => 16
  | .sp => 5
  | .stackEntry _ => 16
  | .memory _ => 8
  | .status => 2
  | .faultKind => 3
  | .faultAddr => 16
  | .faultOpcode => 16
  | .faultOpcodeValid => 1

/-- The encoding of `status` (10_state.md R25). -/
def statusCode (v : RunStatus) : BitVec 2 :=
  match v with
  | .idle => 0b00#2
  | .running => 0b01#2
  | .halted => 0b10#2
  | .faulted => 0b11#2

/-- The fault codes (60_exceptions.md R93). -/
def faultCode (k : FaultKind) : BitVec 3 :=
  match k with
  | .noFault => 0#3
  | .stackOverflow => 1#3
  | .stackUnderflow => 2#3
  | .unknownOpcode => 3#3
  | .addressOutOfRange => 4#3

/-- `Inspect(element)` in any status (60_exceptions.md R105). UNVERIFIED (log 19): the spec's own decision; safe. -/
def State.inspect (s : State) (e : Element) : BitVec e.width :=
  match e with
  | .reg i => s.reg i
  | .pc => s.pc
  | .sp => BitVec.ofNat 5 s.sp.val
  | .stackEntry i => s.stack[i.toNat]
  | .memory a => s.mem.read a.toNat
  | .status => statusCode s.status
  | .faultKind => faultCode s.fault.kind
  | .faultAddr => s.fault.addr
  | .faultOpcode => s.fault.opcode
  | .faultOpcodeValid => BitVec.ofBool s.fault.opcodeValid

end Sys2Proof.Machine
end

