-- ==== Sys2Proof/Safety.lean ====
section
/-! DEFINITION. The terms claims are written in: what stays the same across a step, the invariants, the states a run reaches. -/

namespace Sys2Proof.Machine

/-! ### What stays the same -/

/-- Every byte of memory reads as before. -/
def SameMemory (s t : State) : Prop := ∀ a : Nat, t.mem.read a = s.mem.read a

/-- SP and all 16 entries of the call stack are as before. -/
def SameStack (s t : State) : Prop := t.sp = s.sp ∧ ∀ i : Fin 16, t.stack.get i = s.stack.get i

/-- The run status, the fault record and the number of display-clear events are as before. -/
def SameRunControl (s t : State) : Prop :=
  t.status = s.status ∧ t.fault = s.fault ∧ t.displayClears = s.displayClears

/-- Every register outside `written` is as before. -/
def SameRegsBut (written : List RegIdx) (s t : State) : Prop := ∀ r : RegIdx, r ∉ written → t.reg r = s.reg r

/-- Nothing changed but pc and the registers in `written`. -/
def ChangesOnly (written : List RegIdx) (s t : State) : Prop :=
  SameRegsBut written s t ∧ SameStack s t ∧ SameMemory s t ∧ SameRunControl s t

/-- The step faulted: from the start-of-step state `s` the core entered Faulted with this record, and nothing else changed
(40_fetch_execute_cycle.md R68, 60_exceptions.md R91). -/
def Faults (s t : State) (kind : FaultKind) (opcode : Word) (valid : Bool) : Prop :=
  t.status = .faulted ∧ t.fault = { kind := kind, addr := s.pc, opcode := opcode, opcodeValid := valid } ∧
  t.pc = s.pc ∧ SameRegsBut [] s t ∧ SameStack s t ∧ SameMemory s t ∧ t.displayClears = s.displayClears

/-! ### Which registers an instruction reads and writes (10_state.md R15) -/

/-- The registers an instruction reads. -/
def readRegs (i : Instr) : List RegIdx :=
  match i with
  | .halt | .cls | .ret | .jp _ | .call _ | .ldImm _ _ => []
  | .seImm x _ | .sneImm x _ | .addImm x _ | .shl x _ => [x]
  | .seReg x y | .addReg x y | .sub x y | .subn x y => [x, y]

/-- The registers an instruction writes. -/
def writtenRegs (i : Instr) : List RegIdx :=
  match i with
  | .halt | .cls | .ret | .jp _ | .call _ | .seImm _ _ | .sneImm _ _ | .seReg _ _ => []
  | .ldImm x _ | .addImm x _ => [x]
  | .addReg x _ | .sub x _ | .subn x _ | .shl x _ => [x, 0xF#4]

/-! ### Invariants -/

/-- The fault record of a Faulted core is one of the four that 60_exceptions.md R93 lists, with the pc at the faulting instruction;
in any other status it is zero (10_state.md R26). -/
def RecordLegal (s : State) : Prop :=
  if s.status = .faulted then
    s.fault.addr = s.pc ∧
    match s.fault.kind with
    | .noFault => False
    | .stackOverflow => s.sp.val = 16 ∧ s.fault.opcodeValid = true ∧ ∃ nnn, decodeWord s.fault.opcode = some (.call nnn)
    | .stackUnderflow => s.sp.val = 0 ∧ s.fault.opcodeValid = true ∧ decodeWord s.fault.opcode = some .ret
    | .unknownOpcode => s.fault.opcodeValid = true ∧ decodeWord s.fault.opcode = none
    | .addressOutOfRange => 0xFFF ≤ s.pc.toNat ∧ s.fault.opcodeValid = false ∧ s.fault.opcode = 0x0000#16
  else s.fault = FaultRecord.zero

/-- The invariant that every step and every command keeps: memory in canonical form, the record legal, and every stack entry
a value that a CALL can push (40_fetch_execute_cycle.md R66). -/
def StateLegal (s : State) : Prop :=
  s.mem.wf = true ∧ RecordLegal s ∧ ∀ i : Fin 16, (s.stack.get i).toNat ≤ 0x1000

/-- The range of pc in a run driven only by Reset, Load, Start and Step (40_fetch_execute_cycle.md R66). -/
def PcInRange (s : State) : Prop := s.pc.toNat ≤ 0x1002

/-! ### Runs -/

/-- The states that the host's commands reach from reset when `SkipAndContinue` is not among them
(40_fetch_execute_cycle.md R66). Every program image is among the loads. -/
inductive RunReaches : State → Prop where
  | reset : RunReaches State.reset
  | command (s : State) (c : Command) : RunReaches s → c ≠ .skipAndContinue → RunReaches (s.after c)

end Sys2Proof.Machine
end

