-- ==== Sys2Proof/Certificates/Slice0/Obligations.lean ====
section
/-! DEFINITION. The statements for the provers. -/

open Sys2Proof Sys2Proof.Machine

/-! ### Encoding -/

/-- Decoding an instruction's opcode gives it back, for every operand (30_encoding.md R52, R54). -/
def Obligations.EncodeThenDecodeGivesTheInstruction : Prop := ∀ i : Instr, decodeWord (encode i) = some i

/-- An opcode that decodes to an instruction is that instruction's opcode: no bit is dropped. That SHL keeps its unread `y` field
is the model's choice (log 7). -/
def Obligations.DecodeThenEncodeGivesTheOpcode : Prop := ∀ (op : Word) (i : Instr), decodeWord op = some i → encode i = op

/-- The rows of the opcode table select the tags by `(op & mask) == match`, and no row selects `unknown` (30_encoding.md R52). -/
def Obligations.OpcodeTableRowsSelectTheTags : Prop :=
  ∀ op : Word,
    let rows : List (BitVec 16 × BitVec 16 × OpTag) :=
      [(0x0000#16, 0xFFFF#16, .halt), (0x00E0#16, 0xFFFF#16, .cls), (0x00EE#16, 0xFFFF#16, .ret),
       (0x1000#16, 0xF000#16, .jp), (0x2000#16, 0xF000#16, .call), (0x3000#16, 0xF000#16, .seImm),
       (0x4000#16, 0xF000#16, .sneImm), (0x5000#16, 0xF00F#16, .seReg), (0x6000#16, 0xF000#16, .ldImm),
       (0x7000#16, 0xF000#16, .addImm), (0x8004#16, 0xF00F#16, .addReg), (0x8005#16, 0xF00F#16, .sub),
       (0x8007#16, 0xF00F#16, .subn), (0x800E#16, 0xF00F#16, .shl)]
    (∀ r ∈ rows, ((decode op).op = r.2.2 ↔ op &&& r.2.1 = r.1)) ∧
    ((decode op).op = .unknown ↔ ∀ r ∈ rows, op &&& r.2.1 ≠ r.1)

/-- The unknown space is exactly the four spaces of 30_encoding.md R53, and its opcodes have no instruction. -/
def Obligations.UnknownSpaceIsExact : Prop :=
  ∀ op : Word,
    ((decode op).op = .unknown ↔
      (op.toNat < 0x1000 ∧ op.toNat ≠ 0x0000 ∧ op.toNat ≠ 0x00E0 ∧ op.toNat ≠ 0x00EE) ∨
      (op.toNat / 0x1000 = 0x5 ∧ op.toNat % 0x10 ≠ 0) ∨
      (op.toNat / 0x1000 = 0x8 ∧ op.toNat % 0x10 ≠ 0x4 ∧ op.toNat % 0x10 ≠ 0x5 ∧ op.toNat % 0x10 ≠ 0x7 ∧
        op.toNat % 0x10 ≠ 0xE) ∨
      0x9 ≤ op.toNat / 0x1000) ∧
    ((decode op).op = .unknown ↔ decodeWord op = none)

/-- The decoder extracts all six fields from every opcode (30_encoding.md R48). -/
def Obligations.DecoderExtractsEveryField : Prop :=
  ∀ op : Word,
    (classField op).toNat = op.toNat / 2 ^ 12 ∧ (decode op).x.toNat = op.toNat / 2 ^ 8 % 2 ^ 4 ∧
    (decode op).y.toNat = op.toNat / 2 ^ 4 % 2 ^ 4 ∧ (decode op).d.toNat = op.toNat % 2 ^ 4 ∧
    (decode op).nnn.toNat = op.toNat % 2 ^ 12 ∧ (decode op).kk.toNat = op.toNat % 2 ^ 8 ∧ (decode op).raw = op

/-- One opcode of each family, written out from its encoding, decodes to its instruction; two of the unknown space do not
(95_test_vectors.md section 2.2). -/
def Obligations.SampleOpcodesDecode : Prop :=
  decodeWord 0b0000000011101110#16 = some .ret ∧ decodeWord 0b0000000011100000#16 = some .cls ∧
  decodeWord 0b0010111111111111#16 = some (.call 0xFFF#12) ∧ decodeWord 0b0011101010111100#16 = some (.seImm 0xA#4 0xBC#8) ∧
  decodeWord 0b0110000000011110#16 = some (.ldImm 0x0#4 0x1E#8) ∧ decodeWord 0b1000000100100111#16 = some (.subn 0x1#4 0x2#4) ∧
  decodeWord 0x5121#16 = none ∧ decodeWord 0xFFFF#16 = none

/-! ### Fetch and step -/

/-- A fetch at `A <= 0xFFE`, odd or even, gives the byte at `A` as the high byte and the byte at `A + 1` as the low one; a fetch
above gives nothing. The byte order (log 9) and where the range is checked (log 10) are decisions of the spec. -/
def Obligations.FetchReadsTwoBytesHighFirst : Prop :=
  ∀ s : State,
    (s.pc.toNat ≤ 0xFFE → ∃ op, s.fetch = some op ∧
      op.toNat = 256 * (s.mem.read s.pc.toNat).toNat + (s.mem.read (s.pc.toNat + 1)).toNat) ∧
    (0xFFF ≤ s.pc.toNat → s.fetch = none)

/-- When the two bytes at pc decode to an instruction, a step in Running is exec of that instruction at the same state: exec makes the
fetch advance itself and the step adds nothing around it (log 4). The byte order and the range of the fetch are decisions of the spec
(log 9, 10). -/
def Obligations.StepRunsTheDecodedInstruction : Prop :=
  ∀ (s : State) (i : Instr), s.status = .running → s.pc.toNat ≤ 0xFFE →
    decodeWord (s.mem.read s.pc.toNat ++ s.mem.read (s.pc.toNat + 1)) = some i → step s = exec i s

/-- A fetch at 0xFFF or above takes the AddressOutOfRange fault, with no opcode in the record. That it is checked at the fetch is a
decision of the spec (log 10). -/
def Obligations.FetchOutOfRangeFaults : Prop :=
  ∀ s : State, s.status = .running → 0xFFF ≤ s.pc.toNat →
    ∃ t, step s = .next t ∧ Faults s t .addressOutOfRange 0x0000#16 false

/-- An opcode that matches no row takes the UnknownOpcode fault, carrying the opcode, before any state mutation
(60_exceptions.md R96). -/
def Obligations.UnknownOpcodeFaults : Prop :=
  ∀ (s : State) (op : Word), s.status = .running → s.fetch = some op → (decode op).op = .unknown →
    ∃ t, step s = .next t ∧ Faults s t .unknownOpcode op true

/-- A step request in Idle, Halted or Faulted has no effect: a decision of the spec (log 17). -/
def Obligations.StepOutsideRunningHasNoEffect : Prop := ∀ s : State, s.status ≠ .running → step s = .next s

/-- Every step request of every state has a next state: the model never stops. -/
def Obligations.EveryStepHasANextState : Prop := ∀ s : State, ∃ t, step s = .next t

/-! ### System -/

/-- HALT (41_system.md R71). That pc is `A + 2` in Halted is the spec's own inference (log 22), and that a further step changes nothing is
its decision (log 17). -/
def Obligations.HaltEndsTheRun : Prop :=
  decodeWord 0x0000#16 = some .halt ∧ encode .halt = 0x0000#16 ∧
  ∀ s : State, ∃ t, exec .halt s = .next t ∧ t.status = .halted ∧ t.pc = s.pc + 2#16 ∧ t.fault = s.fault ∧
    t.displayClears = s.displayClears ∧ SameRegsBut [] s t ∧ SameStack s t ∧ SameMemory s t ∧ step t = .next t

/-- CLS: one display-clear event and the fetch advance, nothing else. How the event is recorded is the model's choice (log 1). -/
def Obligations.ClsEmitsOneDisplayClear : Prop :=
  decodeWord 0x00E0#16 = some .cls ∧
  ∀ s : State, ∃ t, exec .cls s = .next t ∧ t.displayClears = s.displayClears + 1 ∧ t.pc = s.pc + 2#16 ∧
    t.status = s.status ∧ t.fault = s.fault ∧ SameRegsBut [] s t ∧ SameStack s t ∧ SameMemory s t

/-! ### Control transfer -/

/-- RET: StackUnderflow when the stack is empty, otherwise the most recent entry becomes pc and SP falls by one. That the
popped entry keeps its value is a decision of the spec (log 15). -/
def Obligations.RetPopsOrUnderflows : Prop :=
  decodeWord 0x00EE#16 = some .ret ∧
  ∀ s : State,
    (s.sp.val = 0 → ∃ t, exec .ret s = .next t ∧ Faults s t .stackUnderflow 0x00EE#16 true) ∧
    (∀ k : Fin 16, s.sp.val = k.val + 1 → ∃ t, exec .ret s = .next t ∧ t.sp.val = k.val ∧ t.pc = s.stack.get k ∧
      (∀ j : Fin 16, t.stack.get j = s.stack.get j) ∧ SameRegsBut [] s t ∧ SameMemory s t ∧ SameRunControl s t)

/-- JP (42_control_transfer.md R74). -/
def Obligations.JpSetsThePc : Prop :=
  (∀ nnn : Addr, decodeWord (0x1#4 ++ nnn) = some (.jp nnn)) ∧
  ∀ (nnn : Addr) (s : State), ∃ t, exec (.jp nnn) s = .next t ∧ t.pc.toNat = nnn.toNat ∧ ChangesOnly [] s t ∧
    (s.pc.toNat = nnn.toNat → t = s) ∧
    (nnn = 0xFFF#12 → s.status = .running → ∃ u, step t = .next u ∧ Faults t u .addressOutOfRange 0x0000#16 false)

/-- CALL (42_control_transfer.md R75, R22): StackOverflow at `SP == 16`, otherwise `A + 2` is pushed and pc becomes the target. -/
def Obligations.CallPushesOrOverflows : Prop :=
  (∀ nnn : Addr, decodeWord (0x2#4 ++ nnn) = some (.call nnn)) ∧
  ∀ (nnn : Addr) (s : State),
    (s.sp.val = 16 → ∃ t, exec (.call nnn) s = .next t ∧ Faults s t .stackOverflow (0x2000#16 + nnn.setWidth 16) true) ∧
    (∀ k : Fin 16, s.sp.val = k.val → ∃ t, exec (.call nnn) s = .next t ∧ t.pc.toNat = nnn.toNat ∧ t.sp.val = k.val + 1 ∧
      t.stack.get k = s.pc + 2#16 ∧ (∀ j : Fin 16, j ≠ k → t.stack.get j = s.stack.get j) ∧
      SameRegsBut [] s t ∧ SameMemory s t ∧ SameRunControl s t)

/-- A RET after a CALL resumes at the instruction following the call, with SP, the live entries and the registers as before it
(42_control_transfer.md R73). -/
def Obligations.RetAfterCallResumesAfterTheCall : Prop :=
  ∀ (nnn : Addr) (s : State), s.sp.val < 16 →
    ∃ t u, exec (.call nnn) s = .next t ∧ exec .ret t = .next u ∧ u.pc = s.pc + 2#16 ∧ u.sp = s.sp ∧
      (∀ j : Fin 16, j.val < s.sp.val → u.stack.get j = s.stack.get j) ∧ SameRegsBut [] s u ∧ SameMemory s u ∧ SameRunControl s u

/-- The call stack is last-in first-out: CALL writes `stack[SP]` and raises SP by one, RET takes `stack[SP - 1]` and lowers SP by one, no other
instruction moves SP, and every entry live before and after is kept (10_state.md R21 to R23). -/
def Obligations.CallStackIsLastInFirstOut : Prop :=
  ∀ (i : Instr) (s t : State), exec i s = .next t →
    (∀ (nnn : Addr) (k : Fin 16), i = .call nnn → s.sp.val = k.val → t.stack.get k = s.pc + 2#16 ∧ t.sp.val = k.val + 1) ∧
    (∀ k : Fin 16, i = .ret → s.sp.val = k.val + 1 → t.pc = s.stack.get k ∧ t.sp.val = k.val) ∧
    (s.sp.val < t.sp.val → t.sp.val = s.sp.val + 1 ∧ ∃ nnn, i = .call nnn) ∧
    (t.sp.val < s.sp.val → s.sp.val = t.sp.val + 1 ∧ i = .ret) ∧
    (∀ j : Fin 16, j.val < s.sp.val → j.val < t.sp.val → t.stack.get j = s.stack.get j)

/-- A CALL to itself pushes `A + 2` each time and faults StackOverflow when the stack is full: from an empty stack on the 17th
execution (42_control_transfer.md R75, 70_reset_and_hazards.md R110). -/
def Obligations.SelfCallOverflowsWhenTheStackIsFull : Prop :=
  ∀ (s : State) (op : Word) (nnn : Addr), s.status = .running → s.fetch = some op → decodeWord op = some (.call nnn) →
    nnn.setWidth 16 = s.pc →
    let t := s.steps (17 - s.sp.val)
    t.status = .faulted ∧ t.fault.kind = .stackOverflow ∧ t.fault.addr = s.pc ∧ t.fault.opcode = op ∧ t.sp.val = 16 ∧
      ∀ j : Fin 16, t.stack.get j = if j.val < s.sp.val then s.stack.get j else s.pc + 2#16

/-- A jump to itself never ends: after any number of steps the state is the same (42_control_transfer.md R74,
70_reset_and_hazards.md R110). -/
def Obligations.SelfJumpNeverEnds : Prop :=
  ∀ (s : State) (op : Word) (nnn : Addr) (n : Nat), s.status = .running → s.fetch = some op → decodeWord op = some (.jp nnn) →
    nnn.setWidth 16 = s.pc → s.steps n = s

/-! ### Skips -/

/-- SE Vx, kk (43_skip.md R77). -/
def Obligations.SeImmSkipsOnEqual : Prop :=
  (∀ (x : RegIdx) (kk : Byte), decodeWord (0x3#4 ++ x ++ kk) = some (.seImm x kk)) ∧
  ∀ (x : RegIdx) (kk : Byte) (s : State), ∃ t, exec (.seImm x kk) s = .next t ∧
    (s.reg x = kk → t.pc = s.pc + 4#16) ∧ (s.reg x ≠ kk → t.pc = s.pc + 2#16) ∧ ChangesOnly [] s t

/-- SNE Vx, kk (43_skip.md R78). -/
def Obligations.SneImmSkipsOnUnequal : Prop :=
  (∀ (x : RegIdx) (kk : Byte), decodeWord (0x4#4 ++ x ++ kk) = some (.sneImm x kk)) ∧
  ∀ (x : RegIdx) (kk : Byte) (s : State), ∃ t, exec (.sneImm x kk) s = .next t ∧
    (s.reg x ≠ kk → t.pc = s.pc + 4#16) ∧ (s.reg x = kk → t.pc = s.pc + 2#16) ∧ ChangesOnly [] s t

/-- SE Vx, Vy (43_skip.md R79): `x == y` always skips; `5xyN` with N not 0 is unknown. -/
def Obligations.SeRegSkipsOnEqualRegisters : Prop :=
  (∀ x y : RegIdx, decodeWord (0x5#4 ++ x ++ y ++ 0x0#4) = some (.seReg x y)) ∧
  (∀ x y n : BitVec 4, n ≠ 0x0#4 → decodeWord (0x5#4 ++ x ++ y ++ n) = none) ∧
  ∀ (x y : RegIdx) (s : State), ∃ t, exec (.seReg x y) s = .next t ∧
    (s.reg x = s.reg y → t.pc = s.pc + 4#16) ∧ (s.reg x ≠ s.reg y → t.pc = s.pc + 2#16) ∧ ChangesOnly [] s t

/-! ### Immediate -/

/-- LD Vx, kk (44_immediate.md R80): also for x = F, which writes VF as an ordinary register. -/
def Obligations.LdImmLoadsTheImmediate : Prop :=
  (∀ (x : RegIdx) (kk : Byte), decodeWord (0x6#4 ++ x ++ kk) = some (.ldImm x kk)) ∧
  ∀ (x : RegIdx) (kk : Byte) (s : State), ∃ t, exec (.ldImm x kk) s = .next t ∧
    t.reg x = kk ∧ t.pc = s.pc + 2#16 ∧ ChangesOnly [x] s t

/-- ADD Vx, kk (44_immediate.md R81): VF is not written as a flag, and for x = F it gets the sum. -/
def Obligations.AddImmWrapsAndLeavesVf : Prop :=
  (∀ (x : RegIdx) (kk : Byte), decodeWord (0x7#4 ++ x ++ kk) = some (.addImm x kk)) ∧
  ∀ (x : RegIdx) (kk : Byte) (s : State), ∃ t, exec (.addImm x kk) s = .next t ∧
    (t.reg x).toNat = ((s.reg x).toNat + kk.toNat) % 256 ∧ (x ≠ 0xF#4 → t.reg 0xF#4 = s.reg 0xF#4) ∧
    t.pc = s.pc + 2#16 ∧ ChangesOnly [x] s t

/-! ### Register arithmetic -/

/-- ADD Vx, Vy (45_alu_register.md R85): for x = F, VF holds the carry only. -/
def Obligations.AddRegAddsWithCarry : Prop :=
  (∀ x y : RegIdx, decodeWord (0x8#4 ++ x ++ y ++ 0x4#4) = some (.addReg x y)) ∧
  ∀ (x y : RegIdx) (s : State), ∃ t, exec (.addReg x y) s = .next t ∧
    (x ≠ 0xF#4 → (t.reg x).toNat = ((s.reg x).toNat + (s.reg y).toNat) % 256) ∧
    (t.reg 0xF#4).toNat = (if (s.reg x).toNat + (s.reg y).toNat > 255 then 1 else 0) ∧
    t.pc = s.pc + 2#16 ∧ ChangesOnly [x, 0xF#4] s t

/-- SUB Vx, Vy (45_alu_register.md R86): VF is 1 on a borrow; for x = F, VF holds the borrow only. -/
def Obligations.SubSubtractsWithBorrow : Prop :=
  (∀ x y : RegIdx, decodeWord (0x8#4 ++ x ++ y ++ 0x5#4) = some (.sub x y)) ∧
  ∀ (x y : RegIdx) (s : State), ∃ t, exec (.sub x y) s = .next t ∧
    (x ≠ 0xF#4 → ((t.reg x).toNat : Int) = (((s.reg x).toNat : Int) - ((s.reg y).toNat : Int)) % 256) ∧
    (t.reg 0xF#4).toNat = (if (s.reg x).toNat < (s.reg y).toNat then 1 else 0) ∧
    t.pc = s.pc + 2#16 ∧ ChangesOnly [x, 0xF#4] s t

/-- SUBN Vx, Vy (45_alu_register.md R87): the operands exchanged. -/
def Obligations.SubnSubtractsReversed : Prop :=
  (∀ x y : RegIdx, decodeWord (0x8#4 ++ x ++ y ++ 0x7#4) = some (.subn x y)) ∧
  ∀ (x y : RegIdx) (s : State), ∃ t, exec (.subn x y) s = .next t ∧
    (x ≠ 0xF#4 → ((t.reg x).toNat : Int) = (((s.reg y).toNat : Int) - ((s.reg x).toNat : Int)) % 256) ∧
    (t.reg 0xF#4).toNat = (if (s.reg y).toNat < (s.reg x).toNat then 1 else 0) ∧
    t.pc = s.pc + 2#16 ∧ ChangesOnly [x, 0xF#4] s t

/-- SHL Vx (45_alu_register.md R88): for every value of the `y` field, which is not read. -/
def Obligations.ShlShiftsOutTheTopBit : Prop :=
  (∀ x y : RegIdx, decodeWord (0x8#4 ++ x ++ y ++ 0xE#4) = some (.shl x y)) ∧
  ∀ (x y : RegIdx) (s : State), ∃ t, exec (.shl x y) s = .next t ∧
    (x ≠ 0xF#4 → t.reg x = s.reg x <<< 1) ∧
    (t.reg 0xF#4).toNat = (s.reg x).toNat / 128 ∧
    t.pc = s.pc + 2#16 ∧ ChangesOnly [x, 0xF#4] s t

/-- The alu_core's table (45_alu_register.md R82), each result and flag as a function of the unbounded values: ADD8 and ADDC, SUBB (SUBNB is
SUBB with its operands exchanged), SHL1 and EQ; the carry is also bit 8 of the 9-bit sum. -/
def Obligations.AluCoreComputesItsTable : Prop :=
  ∀ a b : Byte,
    (addResult a b).toNat = (a.toNat + b.toNat) % 256 ∧
    (carryFlag a b).toNat = (if a.toNat + b.toNat > 255 then 1 else 0) ∧
    (carryFlag a b).getLsbD 0 = (a.setWidth 9 + b.setWidth 9).getLsbD 8 ∧
    ((subResult a b).toNat : Int) = ((a.toNat : Int) - (b.toNat : Int)) % 256 ∧
    (borrowFlag a b).toNat = (if (a.toNat : Int) - (b.toNat : Int) < 0 then 1 else 0) ∧
    (shlResult a).toNat = (a.toNat * 2) % 256 ∧ (shlFlag a).toNat = a.toNat / 2 ^ 7 ∧
    (eqBytes a b = true ↔ a = b)

/-- VF changes only by the four flag writers, which leave it 0 or 1, or as the ordinary destination of LD and ADD immediate
(10_state.md R14, R20, parts of which the spec marks as its own inference). -/
def Obligations.VfChangesOnlyByItsWriters : Prop :=
  ∀ (i : Instr) (s t : State), exec i s = .next t → t.reg 0xF#4 ≠ s.reg 0xF#4 →
    ((∃ x y, i = .addReg x y ∨ i = .sub x y ∨ i = .subn x y ∨ i = .shl x y) ∧ (t.reg 0xF#4).toNat ≤ 1) ∨
    (∃ kk, i = .ldImm 0xF#4 kk ∨ i = .addImm 0xF#4 kk)

/-- Which registers the core reads and writes (10_state.md R15). An instruction writes only those the table lists, and from two states that
differ only in registers it does not read it reaches states that agree in everything but the registers it does not write. A step writes a
register only by the instruction it runs, and reads none but that instruction's: in Running the fetch, the decoder and fault entry read
none. Load, Start and SkipAndContinue neither read nor write a register, and the host reads one with Inspect. -/
def Obligations.InstructionsUseOnlyTheirRegisters : Prop :=
  (∀ (i : Instr) (s t : State) (other : Vector Byte 16), exec i s = .next t →
    SameRegsBut (writtenRegs i) s t ∧
    ((∀ r ∈ readRegs i, ({ s with regs := other } : State).reg r = s.reg r) →
      ∃ t', exec i { s with regs := other } = .next t' ∧ t' = { t with regs := t'.regs } ∧
        (∀ r ∈ writtenRegs i, t'.reg r = t.reg r))) ∧
  (∀ (s t : State) (r : RegIdx), step s = .next t → t.reg r ≠ s.reg r →
    ∃ op i, s.fetch = some op ∧ decodeWord op = some i ∧ r ∈ writtenRegs i) ∧
  (∀ (s t : State) (other : Vector Byte 16), s.status = .running → step s = .next t →
    (∀ op i, s.fetch = some op → decodeWord op = some i → ∀ r ∈ readRegs i, ({ s with regs := other } : State).reg r = s.reg r) →
    ∃ t', step { s with regs := other } = .next t' ∧ t' = { t with regs := t'.regs } ∧
      (∀ op i, s.fetch = some op → decodeWord op = some i → ∀ r ∈ writtenRegs i, t'.reg r = t.reg r)) ∧
  (∀ (s : State) (c : Command) (other : Vector Byte 16), c ≠ .reset → c ≠ .step →
    ({ s with regs := other } : State).after c = { s.after c with regs := other } ∧ (s.after c).regs = s.regs) ∧
  ∀ (s : State) (r : RegIdx), s.inspect (.reg r) = s.reg r

/-! ### The program counter, faults and the run status -/

/-- The next pc is chosen among the six sources by the executed instruction (40_fetch_execute_cycle.md R65). -/
def Obligations.NextPcHasSixSources : Prop :=
  ∀ s t : State, s.status = .running → step s = .next t →
    (t.status = .faulted → t.pc = s.pc) ∧
    (t.status ≠ .faulted → ∃ op i, s.fetch = some op ∧ decodeWord op = some i ∧
      match i with
      | .halt | .cls | .ldImm _ _ | .addImm _ _ | .addReg _ _ | .sub _ _ | .subn _ _ | .shl _ _ => t.pc = s.pc + 2#16
      | .seImm x kk => t.pc = if s.reg x = kk then s.pc + 4#16 else s.pc + 2#16
      | .sneImm x kk => t.pc = if s.reg x ≠ kk then s.pc + 4#16 else s.pc + 2#16
      | .seReg x y => t.pc = if s.reg x = s.reg y then s.pc + 4#16 else s.pc + 2#16
      | .jp nnn => t.pc = nnn.setWidth 16
      | .call nnn => t.pc = nnn.setWidth 16 ∧ ∃ k : Fin 16, k.val = s.sp.val ∧ t.stack.get k = s.pc + 2#16
      | .ret => ∃ k : Fin 16, s.sp.val = k.val + 1 ∧ t.pc = s.stack.get k)

/-- A step that faults commits nothing of its instruction: only the status and the record change, and the record names the faulting
address. That the fetch advance is undone for every fault is a decision of the spec (log 14). -/
def Obligations.FaultingStepCommitsNothing : Prop :=
  ∀ s t : State, s.status = .running → step s = .next t → t.status = .faulted →
    t = { s with status := .faulted, fault := t.fault } ∧ t.fault.addr = s.pc ∧ t.fault.kind ≠ .noFault ∧
    (t.fault.opcodeValid = true → s.fetch = some t.fault.opcode) ∧
    (t.fault.opcodeValid = false → s.fetch = none ∧ t.fault.opcode = 0x0000#16)

/-- StackOverflow is raised exactly by CALL at `SP == 16`, StackUnderflow exactly by RET at `SP == 0` (60_exceptions.md R94, R95). -/
def Obligations.StackFaultsComeOnlyFromCallAndRet : Prop :=
  ∀ s t : State, s.status = .running → step s = .next t →
    (t.status = .faulted ∧ t.fault.kind = .stackOverflow ↔
      s.sp.val = 16 ∧ ∃ op nnn, s.fetch = some op ∧ decodeWord op = some (.call nnn)) ∧
    (t.status = .faulted ∧ t.fault.kind = .stackUnderflow ↔
      s.sp.val = 0 ∧ ∃ op, s.fetch = some op ∧ decodeWord op = some .ret)

/-- A step in Running ends Faulted exactly for one of the four causes (60_exceptions.md R98, R99): the fetch is out of range, the
opcode is unknown, CALL finds the stack full, RET finds it empty. The spec marks both rules as its own inference. -/
def Obligations.FourFaultCausesAndNoOther : Prop :=
  ∀ s t : State, s.status = .running → step s = .next t →
    (t.status = .faulted ↔ s.fetch = none ∨ ∃ op, s.fetch = some op ∧
      (decodeWord op = none ∨ (decodeWord op = some .ret ∧ s.sp.val = 0) ∨
        ∃ nnn, decodeWord op = some (.call nnn) ∧ s.sp.val = 16)) ∧
    (t.status = .faulted ∧ t.fault.kind = .addressOutOfRange ↔ s.fetch = none) ∧
    (t.status = .faulted ∧ t.fault.kind = .unknownOpcode ↔ ∃ op, s.fetch = some op ∧ decodeWord op = none)

/-- A step leaves Running only for Halted, by the opcode 0x0000, or for Faulted; it never returns to Idle, and Idle, Halted and
Faulted are left by no step (70_reset_and_hazards.md R110; the status itself is a decision of the spec, log 12). -/
def Obligations.RunEndsOnlyByHaltOrFault : Prop :=
  ∀ s t : State, step s = .next t →
    (s.status ≠ .running → t.status = s.status) ∧
    (s.status = .running → t.status ≠ .idle ∧ (t.status = .halted ↔ s.fetch = some 0x0000#16))

/-- No instruction changes memory, and of the host's commands only Reset does, and Load in Idle: Start, Step and SkipAndContinue never do, Load
outside Idle does not. That loads are taken only in Idle is a decision of the spec (log 11). -/
def Obligations.MemoryChangesOnlyByResetAndLoadInIdle : Prop :=
  (∀ (i : Instr) (s t : State), exec i s = .next t → SameMemory s t) ∧
  (∀ (s : State) (c : Command), c ≠ .reset → (∀ base bytes, c ≠ .load base bytes) → SameMemory s (s.after c)) ∧
  ∀ (s : State) (base : Nat) (bytes : List Byte), s.status ≠ .idle → SameMemory s (s.after (.load base bytes))

/-- The record of display-clear events is not read by the machine: a step from a state with more events recorded does the same, and only
CLS records one (10_state.md R30; the record is the model's own, log 1). -/
def Obligations.DisplayRecordIsNeverRead : Prop :=
  ∀ (s t : State) (n : Nat), step s = .next t →
    step { s with displayClears := s.displayClears + n } = .next { t with displayClears := t.displayClears + n } ∧
    (t.displayClears = s.displayClears ∨
      s.status = .running ∧ s.fetch = some 0x00E0#16 ∧ t.displayClears = s.displayClears + 1)

/-! ### Reset and invariants -/

/-- The values of the reset state. `status` and the fault record are decisions of the spec (log 12, 13). -/
def Obligations.ResetZeroesTheCore : Prop :=
  (∀ a : Nat, State.reset.mem.read a = 0x00#8) ∧ (∀ r : RegIdx, State.reset.reg r = 0x00#8) ∧
  (∀ k : Fin 16, State.reset.stack.get k = 0x0000#16) ∧ State.reset.sp.val = 0 ∧ State.reset.pc = 0x0000#16 ∧
  State.reset.status = .idle ∧ State.reset.fault = { kind := .noFault, addr := 0x0000#16, opcode := 0x0000#16, opcodeValid := false }

/-- The reset state meets both invariants. The canonical form of memory is the model's (log 23), the status and the record are decisions of
the spec (log 12, 13). -/
def Obligations.ResetIsLegal : Prop := StateLegal State.reset ∧ PcInRange State.reset

/-- Every step keeps memory canonical, the fault record legal and the stack entries in the range a CALL can push. The record and the pc of
a Faulted state are decisions of the spec (log 13, 14), the bound of the entries is its own inference (40_fetch_execute_cycle.md R66), the
canonical form is the model's (log 23). -/
def Obligations.StepKeepsTheStateLegal : Prop :=
  ∀ s t : State, StateLegal s → step s = .next t → StateLegal t

/-- Every step from a legal state keeps pc in 0x000 to 0x1002: the spec's own inference (40_fetch_execute_cycle.md R66), and it rests on its
decisions about pc and the fetch (log 8, 10, 14). -/
def Obligations.StepKeepsThePcInRange : Prop :=
  ∀ s t : State, StateLegal s → PcInRange s → step s = .next t → PcInRange t

/-- Every host command keeps the state legal, SkipAndContinue included. The commands and the record are decisions of the spec (log 11 to 14),
the bound of the stack entries is its own inference (40_fetch_execute_cycle.md R66), the canonical form is the model's (log 23). -/
def Obligations.CommandsKeepTheStateLegal : Prop :=
  ∀ (s : State) (c : Command), StateLegal s → StateLegal (s.after c)

/-- When the only commands since reset are Reset, Load, Start and Step, with any program image, pc is in 0x000 to 0x1002 and every
stack entry is at most 0x1000: the spec's own inference (40_fetch_execute_cycle.md R66). -/
def Obligations.RunsKeepThePcInRange : Prop :=
  ∀ s : State, RunReaches s → s.pc.toNat ≤ 0x1002 ∧ ∀ k : Fin 16, (s.stack.get k).toNat ≤ 0x1000

/-- Two canonical memories that read the same byte at every address are equal: the canonical form is the model's (log 23). -/
def Obligations.CanonicalMemoriesWithEqualReadsAreEqual : Prop :=
  ∀ m m' : Memory, m.wf = true → m'.wf = true → (∀ a : Nat, m.read a = m'.read a) → m = m'

/-! ### Host commands -/

/-- An accepted load writes exactly the bytes of the image and changes nothing else: when a load is taken is a decision of the spec
(log 11). -/
def Obligations.LoadWritesExactlyTheImage : Prop :=
  ∀ (s : State) (base : Nat) (bytes : List Byte), s.mem.wf = true → s.status = .idle → base + bytes.length ≤ 4096 →
    ∃ t, s.command (.load base bytes) = .done t ∧
      (∀ (k : Nat) (h : k < bytes.length), t.mem.read (base + k) = bytes[k]) ∧
      (∀ a : Nat, a < base ∨ base + bytes.length ≤ a → t.mem.read a = s.mem.read a) ∧
      t.pc = s.pc ∧ SameRegsBut [] s t ∧ SameStack s t ∧ SameRunControl s t

/-- A load outside Idle, or of an image that does not fit, is refused without effect: a decision of the spec (log 11). -/
def Obligations.LoadIsRefusedOutsideIdleOrMemory : Prop :=
  ∀ (s : State) (base : Nat) (bytes : List Byte), s.status ≠ .idle ∨ 4096 < base + bytes.length →
    s.command (.load base bytes) = .refused ∧ s.after (.load base bytes) = s

/-- Start moves Idle to Running and nothing else; elsewhere it is refused. Reset in any status gives every
element of the spec its reset value (the model's own count of display events apart, log 2). The status is a decision of the spec (log 12). -/
def Obligations.StartRunsFromIdleOnly : Prop :=
  ∀ s : State,
    (s.status = .idle → s.command .start = .done { s with status := .running }) ∧
    (s.status ≠ .idle → s.command .start = .refused) ∧
    ∃ t, s.command .reset = .done t ∧ t.regs = State.reset.regs ∧ t.pc = State.reset.pc ∧ t.stack = State.reset.stack ∧
      t.sp = State.reset.sp ∧ t.status = State.reset.status ∧ t.fault = State.reset.fault ∧ t.mem = State.reset.mem

/-- SkipAndContinue in Faulted sets pc to `(fault_addr + 2) mod 65536`, clears the record and runs on; elsewhere it is refused: a
decision of the spec (log 14). -/
def Obligations.SkipAndContinueLeavesTheFault : Prop :=
  ∀ s : State,
    (s.status = .faulted → ∃ t, s.command .skipAndContinue = .done t ∧ t.pc.toNat = (s.fault.addr.toNat + 2) % 65536 ∧
      t.fault = FaultRecord.zero ∧ t.status = .running ∧ t.displayClears = s.displayClears ∧
      SameRegsBut [] s t ∧ SameStack s t ∧ SameMemory s t) ∧
    (s.status ≠ .faulted → s.command .skipAndContinue = .refused)

/-- After an AddressOutOfRange fault, SkipAndContinue faults again at `A + 2`, as long as `A + 2` does not wrap around 65536
(60_exceptions.md R105; a decision of the spec, log 14). -/
def Obligations.SkipAfterFetchFaultFaultsAgain : Prop :=
  ∀ s : State, StateLegal s → s.status = .faulted → s.fault.kind = .addressOutOfRange → s.fault.addr.toNat + 2 < 65536 →
    ∃ t, step (s.after .skipAndContinue) = .next t ∧ t.status = .faulted ∧ t.fault.kind = .addressOutOfRange ∧
      t.fault.addr = s.pc + 2#16

/-- Inspect returns every element with its codes: the command and the codes are decisions of the spec (log 12, 13, 19). -/
def Obligations.InspectReturnsEveryElement : Prop :=
  ∀ s : State,
    (∀ r : RegIdx, s.inspect (.reg r) = s.reg r) ∧ s.inspect .pc = s.pc ∧ (s.inspect .sp).toNat = s.sp.val ∧
    (∀ k : Fin 16, s.inspect (.stackEntry (BitVec.ofNat 4 k.val)) = s.stack.get k) ∧
    (∀ a : Addr, s.inspect (.memory a) = s.mem.read a.toNat) ∧
    (s.inspect .status).toNat =
      (match s.status with | .idle => 0 | .running => 1 | .halted => 2 | .faulted => 3) ∧
    (s.inspect .faultKind).toNat =
      (match s.fault.kind with
        | .noFault => 0 | .stackOverflow => 1 | .stackUnderflow => 2 | .unknownOpcode => 3 | .addressOutOfRange => 4) ∧
    s.inspect .faultAddr = s.fault.addr ∧ s.inspect .faultOpcode = s.fault.opcode ∧
    (s.inspect .faultOpcodeValid = 1#1 ↔ s.fault.opcodeValid = true)
end

