-- ==== Sys2Proof/Laws/Decode.lean ====
section
/-! SUPPORT. The laws of the decoder's fields and of the encoder. -/

namespace Sys2Proof

/-! ### The fields of an opcode written from its parts -/

/-- The fields of `c ++ x ++ kk`. -/
theorem fields_of_imm (c : BitVec 4) (x : RegIdx) (kk : Byte) :
    classField (c ++ x ++ kk) = c ∧ xField (c ++ x ++ kk) = x ∧ kkField (c ++ x ++ kk) = kk := by
  refine ⟨?_, ?_, ?_⟩ <;>
    (apply BitVec.eq_of_getLsbD_eq; intro i hi
     simp only [classField, xField, kkField, BitVec.getLsbD_extractLsb', BitVec.getLsbD_append])
  · have h1 : ¬ 12 + i < 8 := by omega
    have h2 : ¬ 12 + i - 8 < 4 := by omega
    have h3 : 12 + i - 8 - 4 = i := by omega
    simp [hi, h1, h2, h3]
  · simp [hi]
  · simp [hi]

/-- The fields of `c ++ x ++ y ++ d`. -/
theorem fields_of_reg (c : BitVec 4) (x y : RegIdx) (d : BitVec 4) :
    classField (c ++ x ++ y ++ d) = c ∧ xField (c ++ x ++ y ++ d) = x ∧ yField (c ++ x ++ y ++ d) = y ∧
      dField (c ++ x ++ y ++ d) = d := by
  refine ⟨?_, ?_, ?_, ?_⟩ <;>
    (apply BitVec.eq_of_getLsbD_eq; intro i hi
     simp only [classField, xField, yField, dField, BitVec.getLsbD_extractLsb', BitVec.getLsbD_append])
  · have h1 : ¬ 12 + i < 4 := by omega
    have h2 : ¬ 12 + i - 4 < 4 := by omega
    have h3 : ¬ 12 + i - 4 - 4 < 4 := by omega
    have h4 : 12 + i - 4 - 4 - 4 = i := by omega
    simp [hi, h1, h2, h3, h4]
  · have h1 : ¬ 8 + i < 4 := by omega
    have h2 : ¬ 8 + i - 4 < 4 := by omega
    have h3 : 8 + i - 4 - 4 = i := by omega
    simp [hi, h1, h2, h3]
  · simp [hi]
  · simp [hi]

/-- The fields of `c ++ nnn`. -/
theorem fields_of_addr (c : BitVec 4) (nnn : Addr) :
    classField (c ++ nnn) = c ∧ nnnField (c ++ nnn) = nnn := by
  refine ⟨?_, ?_⟩ <;>
    (apply BitVec.eq_of_getLsbD_eq; intro i hi
     simp only [classField, nnnField, BitVec.getLsbD_extractLsb', BitVec.getLsbD_append])
  · simp [hi]
  · simp [hi]

/-- An opcode is its class field followed by its address field. -/
theorem class_append_nnn (op : Word) : classField op ++ nnnField op = op := by
  apply BitVec.eq_of_getLsbD_eq
  intro i hi
  simp only [classField, nnnField, BitVec.getLsbD_append, BitVec.getLsbD_extractLsb']
  by_cases h : i < 12
  · simp [h]
  · have h1 : i - 12 < 4 := by omega
    have h2 : 12 + (i - 12) = i := by omega
    simp [h, h1, h2]

/-- An opcode is its class, `x` and `kk` fields. -/
theorem class_append_x_kk (op : Word) : classField op ++ xField op ++ kkField op = op := by
  apply BitVec.eq_of_getLsbD_eq
  intro i hi
  simp only [classField, xField, kkField, BitVec.getLsbD_append, BitVec.getLsbD_extractLsb']
  by_cases h : i < 8
  · simp [h]
  · by_cases h1 : i - 8 < 4
    · have h2 : 8 + (i - 8) = i := by omega
      simp [h, h1, h2]
    · have h2 : i - 8 - 4 < 4 := by omega
      have h3 : 12 + (i - 8 - 4) = i := by omega
      simp [h, h1, h2, h3]

/-- An opcode is its class, `x`, `y` and `d` fields. -/
theorem class_append_x_y_d (op : Word) : classField op ++ xField op ++ yField op ++ dField op = op := by
  apply BitVec.eq_of_getLsbD_eq
  intro i hi
  simp only [classField, xField, yField, dField, BitVec.getLsbD_append, BitVec.getLsbD_extractLsb']
  by_cases h : i < 4
  · simp [h]
  · by_cases h1 : i - 4 < 4
    · have h2 : 4 + (i - 4) = i := by omega
      simp [h, h1, h2]
    · by_cases h3 : i - 4 - 4 < 4
      · have h2 : 8 + (i - 4 - 4) = i := by omega
        simp [h, h1, h2, h3]
      · have h2 : i - 4 - 4 - 4 < 4 := by omega
        have h4 : 12 + (i - 4 - 4 - 4) = i := by omega
        simp [h, h1, h2, h3, h4]

/-! ### The operation an opcode selects (30_encoding.md R52) -/

/-- The three exact opcodes have class 0. -/
theorem not_exact_of_class {op : Word} (h : classField op ≠ 0x0#4) : op ≠ 0x0000#16 ∧ op ≠ 0x00E0#16 ∧ op ≠ 0x00EE#16 := by
  refine ⟨?_, ?_, ?_⟩ <;> (rintro rfl; exact h (by decide))

/-- No class pattern has class 0. -/
theorem classTag_class_zero (d : BitVec 4) : classTag 0x0#4 d = .unknown := by revert d; decide

/-- Outside class 0 the class and `d` choose the tag. -/
theorem opTag_of_class {op : Word} (h : classField op ≠ 0x0#4) : opTag op = classTag (classField op) (dField op) := by
  obtain ⟨h1, h2, h3⟩ := not_exact_of_class h
  simp only [opTag, if_neg h1, if_neg h2, if_neg h3]

/-- In class 0 only the three exact values have an operation. -/
theorem opTag_of_class_zero {op : Word} (h : classField op = 0x0#4) :
    opTag op =
      if op = 0x0000#16 then .halt else if op = 0x00E0#16 then .cls else if op = 0x00EE#16 then .ret else .unknown := by
  simp only [opTag, h, classTag_class_zero]

theorem classTag_eq_jp (c d : BitVec 4) : classTag c d = .jp ↔ c = 0x1#4 := by revert c d; decide
theorem classTag_eq_call (c d : BitVec 4) : classTag c d = .call ↔ c = 0x2#4 := by revert c d; decide
theorem classTag_eq_seImm (c d : BitVec 4) : classTag c d = .seImm ↔ c = 0x3#4 := by revert c d; decide
theorem classTag_eq_sneImm (c d : BitVec 4) : classTag c d = .sneImm ↔ c = 0x4#4 := by revert c d; decide
theorem classTag_eq_seReg (c d : BitVec 4) : classTag c d = .seReg ↔ c = 0x5#4 ∧ d = 0x0#4 := by revert c d; decide
theorem classTag_eq_ldImm (c d : BitVec 4) : classTag c d = .ldImm ↔ c = 0x6#4 := by revert c d; decide
theorem classTag_eq_addImm (c d : BitVec 4) : classTag c d = .addImm ↔ c = 0x7#4 := by revert c d; decide
theorem classTag_eq_addReg (c d : BitVec 4) : classTag c d = .addReg ↔ c = 0x8#4 ∧ d = 0x4#4 := by revert c d; decide
theorem classTag_eq_sub (c d : BitVec 4) : classTag c d = .sub ↔ c = 0x8#4 ∧ d = 0x5#4 := by revert c d; decide
theorem classTag_eq_subn (c d : BitVec 4) : classTag c d = .subn ↔ c = 0x8#4 ∧ d = 0x7#4 := by revert c d; decide
theorem classTag_eq_shl (c d : BitVec 4) : classTag c d = .shl ↔ c = 0x8#4 ∧ d = 0xE#4 := by revert c d; decide

/-- No class pattern selects one of the three exact operations. -/
theorem classTag_ne_exact (c d : BitVec 4) : classTag c d ≠ .halt ∧ classTag c d ≠ .cls ∧ classTag c d ≠ .ret := by
  revert c d; decide

theorem opTag_eq_halt (op : Word) : opTag op = .halt ↔ op = 0x0000#16 := by
  simp only [opTag]
  split_ifs <;> simp_all [classTag_ne_exact]

theorem opTag_eq_cls (op : Word) : opTag op = .cls ↔ op = 0x00E0#16 := by
  simp only [opTag]
  split_ifs <;> simp_all [classTag_ne_exact]

theorem opTag_eq_ret (op : Word) : opTag op = .ret ↔ op = 0x00EE#16 := by
  simp only [opTag]
  split_ifs <;> simp_all [classTag_ne_exact]

/-- An operation other than the three exact ones is selected by the class pattern alone. -/
theorem opTag_eq_iff_classTag (op : Word) {t : OpTag} (h0 : t ≠ .halt) (h1 : t ≠ .cls) (h2 : t ≠ .ret) (h3 : t ≠ .unknown) :
    opTag op = t ↔ classTag (classField op) (dField op) = t := by
  by_cases hc : classField op = 0x0#4
  · rw [opTag_of_class_zero hc, hc, classTag_class_zero]
    split_ifs <;> simp [h0.symm, h1.symm, h2.symm, h3.symm]
  · rw [opTag_of_class hc]

/-- The instruction of an opcode, by its tag. -/
theorem decodeWord_of_tag {op : Word} {t : OpTag} (h : opTag op = t) :
    decodeWord op = ({ decode op with op := t } : Descriptor).instr := by
  simp only [decodeWord, decode, h]

/-- The instruction of an opcode whose class pattern selects an operation. -/
theorem decodeWord_of_classTag {op : Word} {t : OpTag} (h : classTag (classField op) (dField op) = t) (hu : t ≠ .unknown) :
    decodeWord op = ({ decode op with op := t } : Descriptor).instr := by
  have hc : classField op ≠ 0x0#4 := fun e => hu (by rw [← h, e, classTag_class_zero])
  exact decodeWord_of_tag ((opTag_of_class hc).trans h)

/-- An opcode has no instruction exactly when its tag is `unknown`. -/
theorem decodeWord_eq_none_iff (op : Word) : decodeWord op = none ↔ opTag op = .unknown := by
  simp only [decodeWord, decode, Descriptor.instr]
  cases opTag op <;> simp

/-! ### The masks of the opcode table -/

/-- The mask `0xF000` selects the class. -/
theorem and_class_mask (op : Word) (c : BitVec 4) : op &&& 0xF000#16 = c ++ 0x000#12 ↔ classField op = c := by
  have bit : ∀ i : Fin 16, (0xF000#16).getLsbD i = decide (12 ≤ i.val) := by decide
  constructor
  · intro h
    apply BitVec.eq_of_getLsbD_eq
    intro i hi
    have hb := congrArg (fun w : Word => w.getLsbD (12 + i)) h
    have h1 : 12 + i - 12 = i := by omega
    have h2 := bit ⟨12 + i, by omega⟩
    simp only [BitVec.getLsbD_and, BitVec.getLsbD_append] at hb
    simp_all [classField]
  · rintro rfl
    apply BitVec.eq_of_getLsbD_eq
    intro i hi
    have h2 := bit ⟨i, hi⟩
    simp only [BitVec.getLsbD_and, BitVec.getLsbD_append, classField, BitVec.getLsbD_extractLsb']
    by_cases h : i < 12
    · have : ¬ 12 ≤ i := by omega
      simp_all
    · have h1 : i - 12 < 4 := by omega
      have h3 : 12 + (i - 12) = i := by omega
      have h4 : 12 ≤ i := by omega
      simp_all

/-- The mask `0xF00F` selects the class and `d`. -/
theorem and_class_d_mask (op : Word) (c d : BitVec 4) :
    op &&& 0xF00F#16 = c ++ 0x00#8 ++ d ↔ classField op = c ∧ dField op = d := by
  have bit : ∀ i : Fin 16, (0xF00F#16).getLsbD i = decide (12 ≤ i.val ∨ i.val < 4) := by decide
  constructor
  · intro h
    constructor
    · apply BitVec.eq_of_getLsbD_eq
      intro i hi
      have hb := congrArg (fun w : Word => w.getLsbD (12 + i)) h
      have h1 : ¬ 12 + i < 4 := by omega
      have h2 : ¬ 12 + i - 4 < 8 := by omega
      have h3 : 12 + i - 4 - 8 = i := by omega
      have h4 := bit ⟨12 + i, by omega⟩
      simp only [BitVec.getLsbD_and, BitVec.getLsbD_append, h3, h4, if_neg h1, if_neg h2] at hb
      simpa [classField, h1, h2, hi] using hb
    · apply BitVec.eq_of_getLsbD_eq
      intro i hi
      have hb := congrArg (fun w : Word => w.getLsbD i) h
      have h4 := bit ⟨i, by omega⟩
      simp only [BitVec.getLsbD_and, BitVec.getLsbD_append] at hb
      simp_all [dField]
  · rintro ⟨rfl, rfl⟩
    apply BitVec.eq_of_getLsbD_eq
    intro i hi
    have h4 := bit ⟨i, hi⟩
    simp only [BitVec.getLsbD_and, BitVec.getLsbD_append, classField, dField, BitVec.getLsbD_extractLsb']
    by_cases h : i < 4
    · simp_all
    · by_cases h5 : i - 4 < 8
      · have : ¬ 12 ≤ i := by omega
        simp_all
      · have h6 : i - 4 - 8 < 4 := by omega
        have h7 : 12 + (i - 4 - 8) = i := by omega
        have h8 : 12 ≤ i := by omega
        simp_all

end Sys2Proof
end

