-- ==== Sys2Proof/Laws/Memory.lean ====
section
/-! SUPPORT. The laws of memory: read after write, and every operation keeps the canonical form. -/

namespace Sys2Proof.Machine.Memory

/-- The canonical form, one cell at a time. -/
theorem wfFrom_cons {lo k : Nat} {v : Byte} {rest : Memory} :
    wfFrom lo ((k, v) :: rest) = true ↔
      lo ≤ k ∧ k < Config.memBytes ∧ v ≠ Config.resetByte ∧ wfFrom (k + 1) rest = true := by
  simp [wfFrom, and_assoc]

/-- A memory canonical from `lo` up is canonical from any lower address up. -/
theorem wfFrom_mono {m : Memory} {lo lo' : Nat} (hl : lo' ≤ lo) (h : wfFrom lo m = true) : wfFrom lo' m = true := by
  cases m with
  | nil => rfl
  | cons c rest =>
    obtain ⟨h1, h2⟩ := wfFrom_cons.1 h
    exact wfFrom_cons.2 ⟨by omega, h2⟩

/-- Below its first listed address a canonical memory reads the reset byte. -/
theorem read_below {m : Memory} {lo a : Nat} (h : wfFrom lo m = true) (ha : a < lo) : m.read a = Config.resetByte := by
  induction m generalizing lo with
  | nil => rfl
  | cons c rest ih =>
    obtain ⟨h1, -, -, hrest⟩ := wfFrom_cons.1 h
    have hk : c.1 ≠ a := by omega
    rw [read, if_neg hk]
    exact ih hrest (by omega)

/-- Outside its 4096 bytes a canonical memory lists nothing. -/
theorem read_outside {m : Memory} {lo a : Nat} (h : wfFrom lo m = true) (ha : Config.memBytes ≤ a) :
    m.read a = Config.resetByte := by
  induction m generalizing lo with
  | nil => rfl
  | cons c rest ih =>
    obtain ⟨-, h2, -, hrest⟩ := wfFrom_cons.1 h
    have hk : c.1 ≠ a := by omega
    rw [read, if_neg hk]
    exact ih hrest

/-- Read after write: the byte written at its address, every other byte as before. -/
theorem read_write {m : Memory} {lo : Nat} (h : wfFrom lo m = true) (a b : Nat) (v : Byte) :
    (m.write a v).read b = if b = a then v else m.read b := by
  induction m generalizing lo with
  | nil =>
    by_cases hv : v = Config.resetByte
    · by_cases hb : b = a <;> simp [write, read, hv]
    · by_cases hb : b = a
      · simp [write, read, hv, hb]
      · have hb' : a ≠ b := fun e => hb e.symm
        simp [write, read, hv, hb, hb']
  | cons c rest ih =>
    obtain ⟨k, w⟩ := c
    obtain ⟨-, -, -, hrest⟩ := wfFrom_cons.1 h
    unfold write
    split
    · rename_i hka
      by_cases hkb : k = b
      · have : b ≠ a := by omega
        simp [read, hkb, this]
      · simpa only [read, if_neg hkb] using ih hrest
    · split
      · rename_i _ hka
        subst hka
        by_cases hb : b = k
        · subst hb
          split
          · rename_i hv
            simp [read_below hrest (Nat.lt_succ_self _), hv]
          · simp [read]
        · have hb' : k ≠ b := fun e => hb e.symm
          split <;> simp [read, hb']
      · rename_i h1 h2
        by_cases hb : b = a
        · subst hb
          split
          · rename_i hv
            simp [read, h2, hv, read_below hrest (show b < k + 1 by omega)]
          · simp [read]
        · have hb' : a ≠ b := fun e => hb e.symm
          split <;> simp [read, hb']

/-- A write inside memory keeps the canonical form. -/
theorem wfFrom_write {m : Memory} {lo a : Nat} (h : wfFrom lo m = true) (v : Byte) (hlo : lo ≤ a) (ha : a < Config.memBytes) :
    wfFrom lo (m.write a v) = true := by
  induction m generalizing lo with
  | nil => by_cases hv : v = Config.resetByte <;> simp_all [write, wfFrom]
  | cons c rest ih =>
    obtain ⟨k, w⟩ := c
    obtain ⟨h1, h2, h3, hrest⟩ := wfFrom_cons.1 h
    unfold write
    split
    · exact wfFrom_cons.2 ⟨h1, h2, h3, ih hrest (by omega)⟩
    · split
      · rename_i _ hka
        subst hka
        split
        · exact wfFrom_mono (by omega) hrest
        · rename_i hv
          exact wfFrom_cons.2 ⟨h1, h2, hv, hrest⟩
      · split
        · exact h
        · rename_i hv
          exact wfFrom_cons.2 ⟨hlo, ha, hv, wfFrom_cons.2 ⟨by omega, h2, h3, hrest⟩⟩

/-- The canonical form is kept by a write inside memory. -/
theorem wf_write {m : Memory} (h : m.wf = true) {a : Nat} (ha : a < Config.memBytes) (v : Byte) : (m.write a v).wf = true :=
  wfFrom_write h v (Nat.zero_le _) ha

/-- Read after write on a canonical memory. -/
theorem read_write_wf {m : Memory} (h : m.wf = true) (a b : Nat) (v : Byte) :
    (m.write a v).read b = if b = a then v else m.read b :=
  read_write h a b v

/-- The canonical form is kept by writing an image that fits. -/
theorem wf_writeBytes {m : Memory} (h : m.wf = true) (base : Nat) (bytes : List Byte)
    (hfit : base + bytes.length ≤ Config.memBytes) : (m.writeBytes base bytes).wf = true := by
  induction bytes generalizing m base with
  | nil => exact h
  | cons b rest ih =>
    simp only [List.length_cons] at hfit
    exact ih (wf_write h (by omega) b) (base + 1) (by omega)

/-- An address below an image is not written by it. -/
theorem read_writeBytes_below {m : Memory} (h : m.wf = true) (base : Nat) (bytes : List Byte)
    (hfit : base + bytes.length ≤ Config.memBytes) (a : Nat) (ha : a < base) : (m.writeBytes base bytes).read a = m.read a := by
  induction bytes generalizing m base with
  | nil => rfl
  | cons b rest ih =>
    simp only [List.length_cons] at hfit
    rw [writeBytes, ih (wf_write h (by omega) b) (base + 1) (by omega) (by omega), read_write_wf h, if_neg (by omega)]

/-- An opcode written as two bytes is read back from them, high byte first. -/
theorem opcodeOf_opcodeBytes (op : Word) : opcodeOf (op.extractLsb' 8 8) (op.extractLsb' 0 8) = op := by
  apply BitVec.eq_of_getLsbD_eq
  intro i hi
  simp only [opcodeOf, BitVec.getLsbD_append, BitVec.getLsbD_extractLsb']
  by_cases h : i < 8
  · simp [h]
  · have : i - 8 < 8 := by omega
    have e : 8 + (i - 8) = i := by omega
    simp [h, this, e]

end Sys2Proof.Machine.Memory
end

