-- ==== Sys2Proof/Laws/State.lean ====
section
/-! SUPPORT. What each update of the state does to each field, so that no later proof unfolds a record update. -/

namespace Sys2Proof.Machine

/-! ### `setReg` -/

@[simp] theorem State.setReg_regs (s : State) (i : RegIdx) (v : Byte) : (s.setReg i v).regs = s.regs.set i.toNat v := rfl
@[simp] theorem State.setReg_pc (s : State) (i : RegIdx) (v : Byte) : (s.setReg i v).pc = s.pc := rfl
@[simp] theorem State.setReg_stack (s : State) (i : RegIdx) (v : Byte) : (s.setReg i v).stack = s.stack := rfl
@[simp] theorem State.setReg_sp (s : State) (i : RegIdx) (v : Byte) : (s.setReg i v).sp = s.sp := rfl
@[simp] theorem State.setReg_status (s : State) (i : RegIdx) (v : Byte) : (s.setReg i v).status = s.status := rfl
@[simp] theorem State.setReg_fault (s : State) (i : RegIdx) (v : Byte) : (s.setReg i v).fault = s.fault := rfl
@[simp] theorem State.setReg_mem (s : State) (i : RegIdx) (v : Byte) : (s.setReg i v).mem = s.mem := rfl
@[simp] theorem State.setReg_displayClears (s : State) (i : RegIdx) (v : Byte) : (s.setReg i v).displayClears = s.displayClears := rfl

/-! ### `setPc` -/

@[simp] theorem State.setPc_regs (s : State) (target : Word) : (s.setPc target).regs = s.regs := rfl
@[simp] theorem State.setPc_pc (s : State) (target : Word) : (s.setPc target).pc = target := rfl
@[simp] theorem State.setPc_stack (s : State) (target : Word) : (s.setPc target).stack = s.stack := rfl
@[simp] theorem State.setPc_sp (s : State) (target : Word) : (s.setPc target).sp = s.sp := rfl
@[simp] theorem State.setPc_status (s : State) (target : Word) : (s.setPc target).status = s.status := rfl
@[simp] theorem State.setPc_fault (s : State) (target : Word) : (s.setPc target).fault = s.fault := rfl
@[simp] theorem State.setPc_mem (s : State) (target : Word) : (s.setPc target).mem = s.mem := rfl
@[simp] theorem State.setPc_displayClears (s : State) (target : Word) : (s.setPc target).displayClears = s.displayClears := rfl

/-! ### `advance` -/

@[simp] theorem State.advance_regs (s : State) : (s.advance).regs = s.regs := rfl
@[simp] theorem State.advance_pc (s : State) : (s.advance).pc = s.pc + 2#16 := rfl
@[simp] theorem State.advance_stack (s : State) : (s.advance).stack = s.stack := rfl
@[simp] theorem State.advance_sp (s : State) : (s.advance).sp = s.sp := rfl
@[simp] theorem State.advance_status (s : State) : (s.advance).status = s.status := rfl
@[simp] theorem State.advance_fault (s : State) : (s.advance).fault = s.fault := rfl
@[simp] theorem State.advance_mem (s : State) : (s.advance).mem = s.mem := rfl
@[simp] theorem State.advance_displayClears (s : State) : (s.advance).displayClears = s.displayClears := rfl

/-! ### `setStatus` -/

@[simp] theorem State.setStatus_regs (s : State) (v : RunStatus) : (s.setStatus v).regs = s.regs := rfl
@[simp] theorem State.setStatus_pc (s : State) (v : RunStatus) : (s.setStatus v).pc = s.pc := rfl
@[simp] theorem State.setStatus_stack (s : State) (v : RunStatus) : (s.setStatus v).stack = s.stack := rfl
@[simp] theorem State.setStatus_sp (s : State) (v : RunStatus) : (s.setStatus v).sp = s.sp := rfl
@[simp] theorem State.setStatus_status (s : State) (v : RunStatus) : (s.setStatus v).status = v := rfl
@[simp] theorem State.setStatus_fault (s : State) (v : RunStatus) : (s.setStatus v).fault = s.fault := rfl
@[simp] theorem State.setStatus_mem (s : State) (v : RunStatus) : (s.setStatus v).mem = s.mem := rfl
@[simp] theorem State.setStatus_displayClears (s : State) (v : RunStatus) : (s.setStatus v).displayClears = s.displayClears := rfl

/-! ### `emitDisplayClear` -/

@[simp] theorem State.emitDisplayClear_regs (s : State) : (s.emitDisplayClear).regs = s.regs := rfl
@[simp] theorem State.emitDisplayClear_pc (s : State) : (s.emitDisplayClear).pc = s.pc := rfl
@[simp] theorem State.emitDisplayClear_stack (s : State) : (s.emitDisplayClear).stack = s.stack := rfl
@[simp] theorem State.emitDisplayClear_sp (s : State) : (s.emitDisplayClear).sp = s.sp := rfl
@[simp] theorem State.emitDisplayClear_status (s : State) : (s.emitDisplayClear).status = s.status := rfl
@[simp] theorem State.emitDisplayClear_fault (s : State) : (s.emitDisplayClear).fault = s.fault := rfl
@[simp] theorem State.emitDisplayClear_mem (s : State) : (s.emitDisplayClear).mem = s.mem := rfl
@[simp] theorem State.emitDisplayClear_displayClears (s : State) : (s.emitDisplayClear).displayClears = s.displayClears + 1 := rfl

/-! ### `raiseFault` -/

@[simp] theorem State.raiseFault_regs (s : State) (k : FaultKind) (op : Option Word) : (s.raiseFault k op).regs = s.regs := rfl
@[simp] theorem State.raiseFault_pc (s : State) (k : FaultKind) (op : Option Word) : (s.raiseFault k op).pc = s.pc := rfl
@[simp] theorem State.raiseFault_stack (s : State) (k : FaultKind) (op : Option Word) : (s.raiseFault k op).stack = s.stack := rfl
@[simp] theorem State.raiseFault_sp (s : State) (k : FaultKind) (op : Option Word) : (s.raiseFault k op).sp = s.sp := rfl
@[simp] theorem State.raiseFault_status (s : State) (k : FaultKind) (op : Option Word) : (s.raiseFault k op).status = .faulted := rfl
@[simp] theorem State.raiseFault_fault (s : State) (k : FaultKind) (op : Option Word) : (s.raiseFault k op).fault = { kind := k, addr := s.pc, opcode := op.getD 0x0000#16, opcodeValid := op.isSome } := rfl
@[simp] theorem State.raiseFault_mem (s : State) (k : FaultKind) (op : Option Word) : (s.raiseFault k op).mem = s.mem := rfl
@[simp] theorem State.raiseFault_displayClears (s : State) (k : FaultKind) (op : Option Word) : (s.raiseFault k op).displayClears = s.displayClears := rfl

/-! ### `skipFault` -/

@[simp] theorem State.skipFault_regs (s : State) : (s.skipFault).regs = s.regs := rfl
@[simp] theorem State.skipFault_pc (s : State) : (s.skipFault).pc = s.fault.addr + 2#16 := rfl
@[simp] theorem State.skipFault_stack (s : State) : (s.skipFault).stack = s.stack := rfl
@[simp] theorem State.skipFault_sp (s : State) : (s.skipFault).sp = s.sp := rfl
@[simp] theorem State.skipFault_status (s : State) : (s.skipFault).status = .running := rfl
@[simp] theorem State.skipFault_fault (s : State) : (s.skipFault).fault = FaultRecord.zero := rfl
@[simp] theorem State.skipFault_mem (s : State) : (s.skipFault).mem = s.mem := rfl
@[simp] theorem State.skipFault_displayClears (s : State) : (s.skipFault).displayClears = s.displayClears := rfl

/-! ### `withFetchWord` -/

@[simp] theorem State.withFetchWord_regs (s : State) (n w : Nat) : (s.withFetchWord n w).regs = s.regs := rfl
@[simp] theorem State.withFetchWord_pc (s : State) (n w : Nat) : (s.withFetchWord n w).pc = if s.pc.toNat ≤ Config.lastFetch then s.pc else Config.resetPc := rfl
@[simp] theorem State.withFetchWord_stack (s : State) (n w : Nat) : (s.withFetchWord n w).stack = s.stack := rfl
@[simp] theorem State.withFetchWord_sp (s : State) (n w : Nat) : (s.withFetchWord n w).sp = s.sp := rfl
@[simp] theorem State.withFetchWord_status (s : State) (n w : Nat) : (s.withFetchWord n w).status = .running := rfl
@[simp] theorem State.withFetchWord_fault (s : State) (n w : Nat) : (s.withFetchWord n w).fault = s.fault := rfl
@[simp] theorem State.withFetchWord_mem (s : State) (n w : Nat) : (s.withFetchWord n w).mem = s.mem.writeBytes (if s.pc.toNat ≤ Config.lastFetch then s.pc else Config.resetPc).toNat (opcodeBytes (tableOpcode n w)) := rfl
@[simp] theorem State.withFetchWord_displayClears (s : State) (n w : Nat) : (s.withFetchWord n w).displayClears = s.displayClears := rfl

/-! ### `skipIf` and `writeResultAndFlag` -/

@[simp] theorem State.skipIf_pc (s : State) (c : Bool) : (s.skipIf c).pc = if c then s.pc + 2#16 else s.pc := by
  cases c <;> rfl

@[simp] theorem State.skipIf_regs (s : State) (c : Bool) : (s.skipIf c).regs = s.regs := by cases c <;> rfl
@[simp] theorem State.skipIf_stack (s : State) (c : Bool) : (s.skipIf c).stack = s.stack := by cases c <;> rfl
@[simp] theorem State.skipIf_sp (s : State) (c : Bool) : (s.skipIf c).sp = s.sp := by cases c <;> rfl
@[simp] theorem State.skipIf_status (s : State) (c : Bool) : (s.skipIf c).status = s.status := by cases c <;> rfl
@[simp] theorem State.skipIf_fault (s : State) (c : Bool) : (s.skipIf c).fault = s.fault := by cases c <;> rfl
@[simp] theorem State.skipIf_mem (s : State) (c : Bool) : (s.skipIf c).mem = s.mem := by cases c <;> rfl
@[simp] theorem State.skipIf_displayClears (s : State) (c : Bool) : (s.skipIf c).displayClears = s.displayClears := by cases c <;> rfl

@[simp] theorem State.writeResultAndFlag_pc (s : State) (x : RegIdx) (r f : Byte) : (s.writeResultAndFlag x r f).pc = s.pc := rfl
@[simp] theorem State.writeResultAndFlag_stack (s : State) (x : RegIdx) (r f : Byte) : (s.writeResultAndFlag x r f).stack = s.stack := rfl
@[simp] theorem State.writeResultAndFlag_sp (s : State) (x : RegIdx) (r f : Byte) : (s.writeResultAndFlag x r f).sp = s.sp := rfl
@[simp] theorem State.writeResultAndFlag_status (s : State) (x : RegIdx) (r f : Byte) : (s.writeResultAndFlag x r f).status = s.status := rfl
@[simp] theorem State.writeResultAndFlag_fault (s : State) (x : RegIdx) (r f : Byte) : (s.writeResultAndFlag x r f).fault = s.fault := rfl
@[simp] theorem State.writeResultAndFlag_mem (s : State) (x : RegIdx) (r f : Byte) : (s.writeResultAndFlag x r f).mem = s.mem := rfl
@[simp] theorem State.writeResultAndFlag_displayClears (s : State) (x : RegIdx) (r f : Byte) : (s.writeResultAndFlag x r f).displayClears = s.displayClears := rfl

/-! ### Reading a register after an update -/

@[simp] theorem State.reg_setReg_same (s : State) (i : RegIdx) (v : Byte) : (s.setReg i v).reg i = v := by
  simp [State.reg]

@[simp] theorem State.reg_setReg_other (s : State) {i j : RegIdx} (v : Byte) (h : j ≠ i) : (s.setReg i v).reg j = s.reg j := by
  have : i.toNat ≠ j.toNat := fun e => h (BitVec.eq_of_toNat_eq e.symm)
  simp [State.reg, Vector.getElem_set_ne, this]

theorem State.reg_setReg (s : State) (i j : RegIdx) (v : Byte) : (s.setReg i v).reg j = if j = i then v else s.reg j := by
  by_cases h : j = i
  · subst h; simp
  · simp [h]

@[simp] theorem State.reg_setPc (s : State) (j : RegIdx) (target : Word) : (s.setPc target).reg j = s.reg j := rfl
@[simp] theorem State.reg_advance (s : State) (j : RegIdx) : (s.advance).reg j = s.reg j := rfl
@[simp] theorem State.reg_setStatus (s : State) (j : RegIdx) (v : RunStatus) : (s.setStatus v).reg j = s.reg j := rfl
@[simp] theorem State.reg_emitDisplayClear (s : State) (j : RegIdx) : (s.emitDisplayClear).reg j = s.reg j := rfl
@[simp] theorem State.reg_raiseFault (s : State) (j : RegIdx) (k : FaultKind) (op : Option Word) : (s.raiseFault k op).reg j = s.reg j := rfl
@[simp] theorem State.reg_skipFault (s : State) (j : RegIdx) : (s.skipFault).reg j = s.reg j := rfl
@[simp] theorem State.reg_withFetchWord (s : State) (j : RegIdx) (n w : Nat) : (s.withFetchWord n w).reg j = s.reg j := rfl
@[simp] theorem State.reg_skipIf (s : State) (j : RegIdx) (c : Bool) : (s.skipIf c).reg j = s.reg j := by cases c <;> rfl

/-- VF always ends holding the flag, whatever the destination (45_alu_register.md R84). -/
@[simp] theorem State.reg_writeResultAndFlag_flag (s : State) (x : RegIdx) (r f : Byte) :
    (s.writeResultAndFlag x r f).reg Config.flagIndex = f := by
  simp [State.writeResultAndFlag]

theorem State.reg_writeResultAndFlag (s : State) (x j : RegIdx) (r f : Byte) :
    (s.writeResultAndFlag x r f).reg j = if j = Config.flagIndex then f else if j = x then r else s.reg j := by
  simp only [State.writeResultAndFlag, State.reg_setReg]

end Sys2Proof.Machine
end

