-- ==== Sys2Proof/Laws/Ops.lean ====
section
/-! SUPPORT. What each shared operation can do, said once. -/

namespace Sys2Proof.Machine

/-! ### The alu_core against plain bit-vector arithmetic (45_alu_register.md R83) -/

theorem addResult_eq (a b : Byte) : addResult a b = a + b := by
  apply BitVec.eq_of_toNat_eq; simp [addResult, BitVec.toNat_add]

theorem subResult_eq (a b : Byte) : subResult a b = a - b := by
  apply BitVec.eq_of_toNat_eq
  simp only [subResult, BitVec.toNat_ofInt, BitVec.toNat_sub]
  omega

theorem shlResult_eq (a : Byte) : shlResult a = a <<< 1 := by
  apply BitVec.eq_of_toNat_eq; simp [shlResult, BitVec.toNat_shiftLeft, Nat.shiftLeft_eq]

/-- A flag is exactly 0 or 1 (45_alu_register.md R84). -/
theorem flagByte_zero_or_one (c : Bool) : flagByte c = 0x00#8 ∨ flagByte c = 0x01#8 := by
  cases c <;> simp [flagByte]

@[simp] theorem eqBytes_eq_true (a b : Byte) : eqBytes a b = true ↔ a = b := by simp [eqBytes]

/-! ### The call stack -/

/-- Everything a push can do (10_state.md R22). -/
theorem State.push_cases (s : State) (v : Word) :
    (s.sp.val = 16 ∧ s.push v = none) ∨
    (∃ t, s.sp.val < 16 ∧ s.push v = some t ∧ t.sp.val = s.sp.val + 1 ∧ t.regs = s.regs ∧ t.pc = s.pc ∧ t.status = s.status ∧
      t.fault = s.fault ∧ t.mem = s.mem ∧ t.displayClears = s.displayClears ∧
      ∀ i : Fin 16, t.stack.get i = if i.val = s.sp.val then v else s.stack.get i) := by
  by_cases h : s.sp.val < 16
  · refine .inr ⟨_, h, dif_pos h, rfl, rfl, rfl, rfl, rfl, rfl, rfl, fun i => ?_⟩
    simp only [Vector.get_eq_getElem, Vector.getElem_set, eq_comm]
  · exact .inl ⟨by omega, dif_neg h⟩

/-- Everything a pop can do (10_state.md R23): no entry changes (10_state.md R24). -/
theorem State.pop_cases (s : State) :
    (s.sp.val = 0 ∧ s.pop = none) ∨
    (∃ (v : Word) (t : State) (h : 0 < s.sp.val), s.pop = some (v, t) ∧ v = s.stack.get ⟨s.sp.val - 1, by omega⟩ ∧
      t.sp.val = s.sp.val - 1 ∧ t.stack = s.stack ∧ t.regs = s.regs ∧ t.pc = s.pc ∧ t.status = s.status ∧ t.fault = s.fault ∧
      t.mem = s.mem ∧ t.displayClears = s.displayClears) := by
  by_cases h : 0 < s.sp.val
  · exact .inr ⟨_, _, h, dif_pos h, rfl, rfl, rfl, rfl, rfl, rfl, rfl, rfl, rfl⟩
  · exact .inl ⟨by omega, dif_neg h⟩

/-! ### Fetch -/

/-- A fetch in range gives the two bytes, high byte first (40_fetch_execute_cycle.md R61). -/
theorem State.fetch_inRange (s : State) (h : s.pc.toNat ≤ 0xFFE) :
    s.fetch = some (opcodeOf (s.mem.read s.pc.toNat) (s.mem.read (s.pc.toNat + 1))) := if_pos h

/-- A fetch at 0xFFF or above gives nothing (40_fetch_execute_cycle.md R61). -/
theorem State.fetch_outOfRange (s : State) (h : 0xFFF ≤ s.pc.toNat) : s.fetch = none :=
  if_neg (by show ¬ s.pc.toNat ≤ 0xFFE; omega)

/-- A fetch reads no register. -/
@[simp] theorem State.fetch_withRegs (s : State) (other : Vector Byte 16) : ({ s with regs := other } : State).fetch = s.fetch := rfl

/-- The instruction placed for the next step is the one fetched. -/
theorem State.withFetchWord_fetch (s : State) (hm : s.mem.wf = true) (n w : Nat) :
    (s.withFetchWord n w).fetch = some (tableOpcode n w) := by
  have key : ∀ p : Word, p.toNat ≤ 0xFFE →
      opcodeOf ((s.mem.writeBytes p.toNat (opcodeBytes (tableOpcode n w))).read p.toNat)
        ((s.mem.writeBytes p.toNat (opcodeBytes (tableOpcode n w))).read (p.toNat + 1)) = tableOpcode n w := by
    intro p hp
    have hp1 : p.toNat < Config.memBytes := by show p.toNat < 4096; omega
    have hw := Memory.wf_write hm hp1 ((tableOpcode n w).extractLsb' 8 8)
    simp only [opcodeBytes, Memory.writeBytes, Memory.read_write_wf hw, Memory.read_write_wf hm]
    simp [Memory.opcodeOf_opcodeBytes]
  by_cases h : s.pc.toNat ≤ Config.lastFetch
  · simp only [State.fetch, State.withFetchWord_pc, State.withFetchWord_mem, if_pos h]
    exact congrArg some (key _ h)
  · simp only [State.fetch, State.withFetchWord_pc, State.withFetchWord_mem, if_neg h]
    exact congrArg some (key 0#16 (by decide))

end Sys2Proof.Machine
end

