-- ==== Sys2Proof/Laws/PerInstr.lean ====
section
/-! SUPPORT. Statements about every instruction as syntax, one lemma for each constructor. -/

namespace Sys2Proof.Laws.RoundTrip

/-- The decoder reads an instruction back from its opcode. -/
def Statement (i : Instr) : Prop := decodeWord (encode i) = some i

theorem halt : Statement .halt := by unfold Statement; decide

theorem cls : Statement .cls := by unfold Statement; decide

theorem ret : Statement .ret := by unfold Statement; decide

theorem jp (nnn : Addr) : Statement (.jp nnn) := by
  obtain ⟨hc, hn⟩ := fields_of_addr 0x1#4 nnn
  have e := decodeWord_of_classTag ((classTag_eq_jp _ _).2 hc) (by decide)
  exact e.trans (congrArg (fun n => some (Instr.jp n)) hn)

theorem call (nnn : Addr) : Statement (.call nnn) := by
  obtain ⟨hc, hn⟩ := fields_of_addr 0x2#4 nnn
  have e := decodeWord_of_classTag ((classTag_eq_call _ _).2 hc) (by decide)
  exact e.trans (congrArg (fun n => some (Instr.call n)) hn)

theorem seImm (x : RegIdx) (kk : Byte) : Statement (.seImm x kk) := by
  obtain ⟨hc, hx, hk⟩ := fields_of_imm 0x3#4 x kk
  have e := decodeWord_of_classTag ((classTag_eq_seImm _ _).2 hc) (by decide)
  exact e.trans (congrArg₂ (fun x k => some (Instr.seImm x k)) hx hk)

theorem sneImm (x : RegIdx) (kk : Byte) : Statement (.sneImm x kk) := by
  obtain ⟨hc, hx, hk⟩ := fields_of_imm 0x4#4 x kk
  have e := decodeWord_of_classTag ((classTag_eq_sneImm _ _).2 hc) (by decide)
  exact e.trans (congrArg₂ (fun x k => some (Instr.sneImm x k)) hx hk)

theorem ldImm (x : RegIdx) (kk : Byte) : Statement (.ldImm x kk) := by
  obtain ⟨hc, hx, hk⟩ := fields_of_imm 0x6#4 x kk
  have e := decodeWord_of_classTag ((classTag_eq_ldImm _ _).2 hc) (by decide)
  exact e.trans (congrArg₂ (fun x k => some (Instr.ldImm x k)) hx hk)

theorem addImm (x : RegIdx) (kk : Byte) : Statement (.addImm x kk) := by
  obtain ⟨hc, hx, hk⟩ := fields_of_imm 0x7#4 x kk
  have e := decodeWord_of_classTag ((classTag_eq_addImm _ _).2 hc) (by decide)
  exact e.trans (congrArg₂ (fun x k => some (Instr.addImm x k)) hx hk)

theorem seReg (x y : RegIdx) : Statement (.seReg x y) := by
  obtain ⟨hc, hx, hy, hd⟩ := fields_of_reg 0x5#4 x y 0x0#4
  have e := decodeWord_of_classTag ((classTag_eq_seReg _ _).2 ⟨hc, hd⟩) (by decide)
  exact e.trans (congrArg₂ (fun x y => some (Instr.seReg x y)) hx hy)

theorem addReg (x y : RegIdx) : Statement (.addReg x y) := by
  obtain ⟨hc, hx, hy, hd⟩ := fields_of_reg 0x8#4 x y 0x4#4
  have e := decodeWord_of_classTag ((classTag_eq_addReg _ _).2 ⟨hc, hd⟩) (by decide)
  exact e.trans (congrArg₂ (fun x y => some (Instr.addReg x y)) hx hy)

theorem sub (x y : RegIdx) : Statement (.sub x y) := by
  obtain ⟨hc, hx, hy, hd⟩ := fields_of_reg 0x8#4 x y 0x5#4
  have e := decodeWord_of_classTag ((classTag_eq_sub _ _).2 ⟨hc, hd⟩) (by decide)
  exact e.trans (congrArg₂ (fun x y => some (Instr.sub x y)) hx hy)

theorem subn (x y : RegIdx) : Statement (.subn x y) := by
  obtain ⟨hc, hx, hy, hd⟩ := fields_of_reg 0x8#4 x y 0x7#4
  have e := decodeWord_of_classTag ((classTag_eq_subn _ _).2 ⟨hc, hd⟩) (by decide)
  exact e.trans (congrArg₂ (fun x y => some (Instr.subn x y)) hx hy)

theorem shl (x y : RegIdx) : Statement (.shl x y) := by
  obtain ⟨hc, hx, hy, hd⟩ := fields_of_reg 0x8#4 x y 0xE#4
  have e := decodeWord_of_classTag ((classTag_eq_shl _ _).2 ⟨hc, hd⟩) (by decide)
  exact e.trans (congrArg₂ (fun x y => some (Instr.shl x y)) hx hy)

end Sys2Proof.Laws.RoundTrip
end

