-- ==== Sys2Proof/Laws/Step.lean ====
section
/-! SUPPORT. What RET, CALL and a step can do, said once. -/

namespace Sys2Proof.Machine

/-- RET either takes the underflow fault or pops (42_control_transfer.md R73). -/
theorem exec_ret_cases (s : State) :
    (s.sp.val = 0 ∧ exec .ret s = .next (s.raiseFault .stackUnderflow (some 0x00EE#16))) ∨
    (∃ (t : State) (h : 0 < s.sp.val), exec .ret s = .next t ∧ t.pc = s.stack.get ⟨s.sp.val - 1, by omega⟩ ∧
      t.sp.val = s.sp.val - 1 ∧ t.stack = s.stack ∧ t.regs = s.regs ∧ t.status = s.status ∧ t.fault = s.fault ∧
      t.mem = s.mem ∧ t.displayClears = s.displayClears) := by
  rcases s.advance.pop_cases with ⟨h0, hp⟩ | ⟨v, t, h0, hp, hv, hsp, hst, hr, -, hs, hf, hm, hd⟩
  · exact .inl ⟨h0, by simp only [exec, execRet, hp, encode]⟩
  · exact .inr ⟨t.setPc v, h0, by simp only [exec, execRet, hp], hv, hsp, hst, hr, hs, hf, hm, hd⟩

/-- CALL either takes the overflow fault or pushes (42_control_transfer.md R75). -/
theorem exec_call_cases (nnn : Addr) (s : State) :
    (s.sp.val = 16 ∧ exec (.call nnn) s = .next (s.raiseFault .stackOverflow (some (encode (.call nnn))))) ∨
    (∃ t : State, s.sp.val < 16 ∧ exec (.call nnn) s = .next t ∧ t.pc = nnn.setWidth 16 ∧ t.sp.val = s.sp.val + 1 ∧
      (∀ i : Fin 16, t.stack.get i = if i.val = s.sp.val then s.pc + 2#16 else s.stack.get i) ∧ t.regs = s.regs ∧
      t.status = s.status ∧ t.fault = s.fault ∧ t.mem = s.mem ∧ t.displayClears = s.displayClears) := by
  rcases s.advance.push_cases s.advance.pc with ⟨h0, hp⟩ | ⟨t, h0, hp, hsp, hr, -, hs, hf, hm, hd, hst⟩
  · exact .inl ⟨h0, by simp only [exec, execCall, hp]⟩
  · exact .inr ⟨t.setPc (addrOperand nnn), h0, by simp only [exec, execCall, hp], rfl, hsp, hst, hr, hs, hf, hm, hd⟩

/-- A step in Running whose fetch is out of range. -/
theorem step_of_fetch_none {s : State} (hr : s.status = .running) (hf : s.fetch = none) :
    step s = .next (s.raiseFault .addressOutOfRange none) := by simp only [step, hr, hf]

/-- A step in Running whose opcode is unknown. -/
theorem step_of_unknown {s : State} {op : Word} (hr : s.status = .running) (hf : s.fetch = some op)
    (hd : decodeWord op = none) : step s = .next (s.raiseFault .unknownOpcode (some op)) := by simp only [step, hr, hf, hd]

/-- A step in Running whose opcode has an instruction. -/
theorem step_of_decode {s : State} {op : Word} {i : Instr} (hr : s.status = .running) (hf : s.fetch = some op)
    (hd : decodeWord op = some i) : step s = exec i s := by simp only [step, hr, hf, hd]

/-- Everything a step request can do (40_fetch_execute_cycle.md R60, R61, R64, R70). -/
theorem step_cases (s : State) :
    (s.status ≠ .running ∧ step s = .next s) ∨
    (s.status = .running ∧ 0xFFF ≤ s.pc.toNat ∧ s.fetch = none ∧ step s = .next (s.raiseFault .addressOutOfRange none)) ∨
    (∃ op, s.status = .running ∧ s.pc.toNat ≤ 0xFFE ∧ s.fetch = some op ∧ decodeWord op = none ∧
      step s = .next (s.raiseFault .unknownOpcode (some op))) ∨
    (∃ op i, s.status = .running ∧ s.pc.toNat ≤ 0xFFE ∧ s.fetch = some op ∧ decodeWord op = some i ∧ step s = exec i s) := by
  by_cases hr : s.status = .running
  · by_cases hp : s.pc.toNat ≤ 0xFFE
    · have hf := s.fetch_inRange hp
      generalize opcodeOf (s.mem.read s.pc.toNat) (s.mem.read (s.pc.toNat + 1)) = op at hf
      cases hd : decodeWord op with
      | none => exact .inr (.inr (.inl ⟨op, hr, hp, hf, hd, step_of_unknown hr hf hd⟩))
      | some i => exact .inr (.inr (.inr ⟨op, i, hr, hp, hf, hd, step_of_decode hr hf hd⟩))
    · have hp' : 0xFFF ≤ s.pc.toNat := by omega
      have hf := s.fetch_outOfRange hp'
      exact .inr (.inl ⟨hr, hp', hf, step_of_fetch_none hr hf⟩)
  · refine .inl ⟨hr, ?_⟩
    cases h : s.status <;> simp_all [step]

/-- The `Step` command gives the next state of the step. -/
theorem State.after_step {s t : State} (h : step s = .next t) : s.after .step = t := by
  simp only [State.after, State.command, h]

/-- The instruction the host places is the one the next step runs. -/
theorem step_withFetchWord (s : State) (hm : s.mem.wf = true) (n w : Nat) (i : Instr)
    (h : decodeWord (tableOpcode n w) = some i) : step (s.withFetchWord n w) = exec i (s.withFetchWord n w) :=
  step_of_decode (State.withFetchWord_status s n w) (State.withFetchWord_fetch s hm n w) h

end Sys2Proof.Machine
end

