-- ==== Sys2Proof/Tests/Slice0.lean ====
section
/-! SUPPORT. Tests of single steps and of the decoder, and a witness for the hypotheses of every statement. Expected values are the
spec's: the worked examples of the rules and the vectors of 95_test_vectors.md, named at each group. -/

namespace Sys2Proof.Tests

open Sys2Proof.Machine

/-! ### Small states -/

/-- The reset state, Running. -/
def running : State := { State.reset with status := .running }

/-- A running state with two registers set. -/
def with2 (i : RegIdx) (v : Byte) (j : RegIdx) (w : Byte) : State := (running.setReg i v).setReg j w

/-- The state after one step that runs the opcode `op` placed at pc. -/
def stepOp (s : State) (op : Nat) : State :=
  match step (s.withFetchWord 16 op) with
  | .next t => t
  | _ => State.reset

/-- A running state whose stack is full. -/
def fullStack : State := { running with sp := 16 }

/-- A running state with one live entry. -/
def oneEntry (ra : Word) : State := { running with sp := 1, stack := running.stack.set 0 ra }

/-! ### WellFormed: each check refuses an ill-formed term (95_test_vectors.md section 2.8) -/

theorem test_image_past_memory_is_ill_formed : imageFits 0xFFF [1#8, 2#8] = false := by decide
theorem test_image_up_to_the_end_is_well_formed : imageFits 0xFFE [1#8, 2#8] = true := by decide

/-! ### Decoding: opcodes written out bit by bit from 30_encoding.md R52 (95_test_vectors.md section 2.2) -/

theorem test_decode_halt : decodeWord 0b0000000000000000#16 = some .halt := by decide
theorem test_decode_cls : decodeWord 0b0000000011100000#16 = some .cls := by decide
theorem test_decode_ret : decodeWord 0b0000000011101110#16 = some .ret := by decide
theorem test_decode_jp : decodeWord 0b0001001000110100#16 = some (.jp 0x234#12) := by decide
theorem test_decode_call : decodeWord 0b0010111111111111#16 = some (.call 0xFFF#12) := by decide
theorem test_decode_seImm : decodeWord 0b0011101010111100#16 = some (.seImm 0xA#4 0xBC#8) := by decide
theorem test_decode_sneImm : decodeWord 0b0100001100001000#16 = some (.sneImm 0x3#4 0x08#8) := by decide
theorem test_decode_seReg : decodeWord 0b0101000100100000#16 = some (.seReg 0x1#4 0x2#4) := by decide
theorem test_decode_ldImm : decodeWord 0b0110111110101011#16 = some (.ldImm 0xF#4 0xAB#8) := by decide
theorem test_decode_addImm : decodeWord 0b0111001000100000#16 = some (.addImm 0x2#4 0x20#8) := by decide
theorem test_decode_addReg : decodeWord 0b1000101010110100#16 = some (.addReg 0xA#4 0xB#4) := by decide
theorem test_decode_sub : decodeWord 0b1000000100100101#16 = some (.sub 0x1#4 0x2#4) := by decide
theorem test_decode_subn : decodeWord 0b1000000100100111#16 = some (.subn 0x1#4 0x2#4) := by decide
theorem test_decode_shl : decodeWord 0b1000000110101110#16 = some (.shl 0x1#4 0xA#4) := by decide

theorem test_decode_unknown :
    [0x0001#16, 0x00E1#16, 0x00FF#16, 0x0123#16, 0x5121#16, 0x512F#16, 0x8120#16, 0x8126#16, 0x812F#16, 0x9120#16, 0xA123#16,
      0xF00F#16, 0xFFFF#16].all (fun op => decodeWord op == none) = true := by decide

/-- The fields of `0x8AB4` (95_test_vectors.md section 2.2). -/
theorem test_fields :
    decode 0x8AB4#16 =
      { op := .addReg, x := 0xA#4, y := 0xB#4, d := 0x4#4, nnn := 0xAB4#12, kk := 0xB4#8, raw := 0x8AB4#16 } := by decide

theorem test_decode_bytes_high_first : decodeBytes [0x12#8, 0x34#8, 0x56#8] = some (.jp 0x234#12, [0x56#8]) := by decide
theorem test_decode_table_word : decodeTableWord 16 0x81AE = some (.shl 0x1#4 0xA#4) := by decide

/-! ### Memory (95_test_vectors.md section 2.8; the canonical form) -/

theorem test_write_reset_byte_removes : Memory.write [(5, 1#8), (9, 2#8)] 5 0#8 = [(9, 2#8)] := by decide
theorem test_load_at_the_end :
    (State.reset.after (.load 0xFFE [1#8, 2#8])).mem = [(0xFFE, 1#8), (0xFFF, 2#8)] := by decide

/-! ### Fetch (95_test_vectors.md section 2.1) -/

theorem test_fetch_last_word :
    (stepOp { running with pc := 0xFFE#16 } 0x6077).pc = 0x1000#16 ∧
      (stepOp { running with pc := 0xFFE#16 } 0x6077).reg 0x0#4 = 0x77#8 := by decide
theorem test_fetch_odd :
    (stepOp { running with pc := 0x001#16 } 0x6142).pc = 0x003#16 ∧
      (stepOp { running with pc := 0x001#16 } 0x6142).reg 0x1#4 = 0x42#8 := by decide
theorem test_fetch_out_of_range :
    step { running with pc := 0xFFF#16 } = .next
      { running with
        pc := 0xFFF#16, status := .faulted
        fault := { kind := .addressOutOfRange, addr := 0x0FFF#16, opcode := 0#16, opcodeValid := false } } := by rfl
theorem test_unknown_opcode_faults :
    (stepOp running 0xFFFF).fault = { kind := .unknownOpcode, addr := 0x000#16, opcode := 0xFFFF#16, opcodeValid := true } ∧
      (stepOp running 0xFFFF).pc = 0x000#16 ∧ (stepOp running 0xFFFF).status = .faulted := by decide

/-! ### One step of each instruction (95_test_vectors.md sections 2.3 to 2.7) -/

theorem test_halt : (stepOp { running with pc := 0x008#16 } 0x0000).status = .halted ∧
    (stepOp { running with pc := 0x008#16 } 0x0000).pc = 0x00A#16 := by decide
theorem test_cls : (stepOp { running with pc := 0x010#16 } 0x00E0).displayClears = 1 ∧
    (stepOp { running with pc := 0x010#16 } 0x00E0).pc = 0x012#16 := by decide
theorem test_ret_pops : (stepOp (oneEntry 0x1000#16) 0x00EE).pc = 0x1000#16 ∧ (stepOp (oneEntry 0x1000#16) 0x00EE).sp = 0 ∧
    (stepOp (oneEntry 0x1000#16) 0x00EE).stack[0] = 0x1000#16 := by decide
theorem test_ret_underflows :
    (stepOp running 0x00EE).fault = { kind := .stackUnderflow, addr := 0x000#16, opcode := 0x00EE#16, opcodeValid := true } := by
  decide
theorem test_jp_odd_target : (stepOp running 0x1001).pc = 0x001#16 := by decide
theorem test_call_pushes : (stepOp { running with pc := 0xFFE#16 } 0x2ABC).stack[0] = 0x1000#16 ∧
    (stepOp { running with pc := 0xFFE#16 } 0x2ABC).sp = 1 ∧ (stepOp { running with pc := 0xFFE#16 } 0x2ABC).pc = 0xABC#16 := by decide
theorem test_call_overflows :
    (stepOp fullStack 0x2000).fault = { kind := .stackOverflow, addr := 0x000#16, opcode := 0x2000#16, opcodeValid := true } ∧
      (stepOp fullStack 0x2000).pc = 0x000#16 ∧ (stepOp fullStack 0x2000).sp = 16 := by decide
theorem test_seImm : (stepOp (running.setReg 0x3#4 7#8) 0x3307).pc = 0x004#16 ∧
    (stepOp (running.setReg 0x3#4 8#8) 0x3307).pc = 0x002#16 := by decide
theorem test_sneImm : (stepOp (running.setReg 0x3#4 7#8) 0x4308).pc = 0x004#16 ∧
    (stepOp (running.setReg 0x3#4 7#8) 0x4307).pc = 0x002#16 := by decide
theorem test_seReg : (stepOp (with2 0x1#4 0x20#8 0x2#4 0x20#8) 0x5120).pc = 0x004#16 ∧
    (stepOp (with2 0x1#4 0x20#8 0x2#4 0x21#8) 0x5120).pc = 0x002#16 := by decide
theorem test_ldImm_vf : (stepOp (running.setReg 0xF#4 1#8) 0x6FAB).reg 0xF#4 = 0xAB#8 := by decide
theorem test_addImm_leaves_vf : (stepOp (with2 0x2#4 0xF0#8 0xF#4 7#8) 0x7220).reg 0x2#4 = 0x10#8 ∧
    (stepOp (with2 0x2#4 0xF0#8 0xF#4 7#8) 0x7220).reg 0xF#4 = 7#8 := by decide
theorem test_addReg_carries : (stepOp (with2 0x1#4 10#8 0x2#4 250#8) 0x8124).reg 0x1#4 = 4#8 ∧
    (stepOp (with2 0x1#4 10#8 0x2#4 250#8) 0x8124).reg 0xF#4 = 1#8 := by decide
theorem test_addReg_reads_old_vf : (stepOp (with2 0x1#4 0x10#8 0xF#4 1#8) 0x81F4).reg 0x1#4 = 0x11#8 ∧
    (stepOp (with2 0x1#4 0x10#8 0xF#4 1#8) 0x81F4).reg 0xF#4 = 0#8 := by decide
theorem test_sub_borrows : (stepOp (with2 0x1#4 3#8 0x2#4 5#8) 0x8125).reg 0x1#4 = 254#8 ∧
    (stepOp (with2 0x1#4 3#8 0x2#4 5#8) 0x8125).reg 0xF#4 = 1#8 := by decide
theorem test_sub_into_vf : (stepOp (with2 0xF#4 2#8 0x1#4 3#8) 0x8F15).reg 0xF#4 = 1#8 := by decide
theorem test_subn_borrows : (stepOp (with2 0x1#4 5#8 0x2#4 3#8) 0x8127).reg 0x1#4 = 0xFE#8 ∧
    (stepOp (with2 0x1#4 5#8 0x2#4 3#8) 0x8127).reg 0xF#4 = 1#8 := by decide
theorem test_subn_no_borrow : (stepOp (with2 0x1#4 3#8 0x2#4 5#8) 0x8127).reg 0x1#4 = 2#8 ∧
    (stepOp (with2 0x1#4 3#8 0x2#4 5#8) 0x8127).reg 0xF#4 = 0#8 := by decide
theorem test_shl_top_bit : (stepOp (running.setReg 0x4#4 0xC1#8) 0x840E).reg 0x4#4 = 0x82#8 ∧
    (stepOp (running.setReg 0x4#4 0xC1#8) 0x840E).reg 0xF#4 = 1#8 := by decide
theorem test_shl_ignores_y : (stepOp (with2 0x1#4 0x41#8 0xA#4 0xFF#8) 0x81AE).reg 0x1#4 = 0x82#8 ∧
    (stepOp (with2 0x1#4 0x41#8 0xA#4 0xFF#8) 0x81AE).reg 0xF#4 = 0#8 := by decide

/-! ### Host commands (95_test_vectors.md section 2.8) -/

/-- The Faulted state of a full stack after CALL at 0x000. -/
def overflowed : State := stepOp fullStack 0x2000

theorem test_load_when_running_is_refused : running.command (.load 0 [1#8]) = .refused := by rfl
theorem test_start_when_halted_is_refused : State.command { running with status := .halted } .start = .refused := by rfl
theorem test_skip_and_continue : (overflowed.after .skipAndContinue).pc = 0x002#16 ∧
    (overflowed.after .skipAndContinue).status = .running ∧ (overflowed.after .skipAndContinue).sp = 16 := by decide
theorem test_inspect_widths : (fullStack.inspect .sp).toNat = 16 ∧ (overflowed.inspect .faultKind).toNat = 1 := by decide

/-! ### Witnesses: the hypotheses of each statement are met -/

/-- A running state about to run the opcode `op` at `pc`. -/
def about (pc : Word) (op : Nat) : State := { running with pc := pc }.withFetchWord 16 op

theorem witness_DecodeThenEncodeGivesTheOpcode : decodeWord 0x81AE#16 = some (.shl 0x1#4 0xA#4) := by decide

theorem witness_FetchReadsTwoBytesHighFirst :
    (about 0xFFE#16 0x6077).pc.toNat ≤ 0xFFE ∧ 0xFFF ≤ ({ running with pc := 0xFFF#16 } : State).pc.toNat := by decide

theorem witness_StepRunsTheDecodedInstruction :
    (about 0x001#16 0x6142).status = .running ∧ (about 0x001#16 0x6142).pc.toNat ≤ 0xFFE ∧
      decodeWord ((about 0x001#16 0x6142).mem.read 1 ++ (about 0x001#16 0x6142).mem.read 2) = some (.ldImm 0x1#4 0x42#8) := by decide

theorem witness_FetchOutOfRangeFaults :
    ({ running with pc := 0xFFF#16 } : State).status = .running ∧ 0xFFF ≤ ({ running with pc := 0xFFF#16 } : State).pc.toNat := by
  decide

theorem witness_UnknownOpcodeFaults :
    (about 0#16 0xFFFF).status = .running ∧ (about 0#16 0xFFFF).fetch = some 0xFFFF#16 ∧ (decode 0xFFFF#16).op = .unknown := by decide

theorem witness_StepOutsideRunningHasNoEffect : State.reset.status ≠ .running := by decide

theorem witness_RetPopsOrUnderflows_empty : running.sp.val = 0 := by decide
theorem witness_RetPopsOrUnderflows_one : (oneEntry 0x002#16).sp.val = (0 : Fin 16).val + 1 := by decide
theorem witness_RetPopsOrUnderflows_full : fullStack.sp.val = (15 : Fin 16).val + 1 := by decide

theorem witness_JpSetsThePc_self : running.pc.toNat = (0x000#12).toNat := by decide
theorem witness_JpSetsThePc_last : (0xFFF#12 : Addr) = 0xFFF#12 ∧ running.status = .running := by decide

theorem witness_CallPushesOrOverflows_full : fullStack.sp.val = 16 := by decide
theorem witness_CallPushesOrOverflows_empty : running.sp.val = (0 : Fin 16).val := by decide
theorem witness_CallPushesOrOverflows_last : ({ running with sp := 15 } : State).sp.val = (15 : Fin 16).val := by decide

theorem witness_RetAfterCallResumesAfterTheCall : ({ running with sp := 15 } : State).sp.val < 16 := by decide

/-- The next state of an instruction, or the reset state. -/
def execOr (i : Instr) (s : State) : State :=
  match exec i s with
  | .next t => t
  | _ => State.reset

theorem witness_CallStackIsLastInFirstOut_call :
    exec (.call 0x100#12) running = .next (execOr (.call 0x100#12) running) ∧
      running.sp.val < (execOr (.call 0x100#12) running).sp.val := ⟨rfl, by decide⟩
theorem witness_CallStackIsLastInFirstOut_ret :
    exec .ret (oneEntry 2#16) = .next (execOr .ret (oneEntry 2#16)) ∧
      (execOr .ret (oneEntry 2#16)).sp.val < (oneEntry 2#16).sp.val := ⟨rfl, by decide⟩
theorem witness_CallStackIsLastInFirstOut_last_push :
    exec (.call 0x100#12) { running with sp := 15 } = .next (execOr (.call 0x100#12) { running with sp := 15 }) ∧
      ({ running with sp := 15 } : State).sp.val = (15 : Fin 16).val := ⟨rfl, by decide⟩
theorem witness_CallStackIsLastInFirstOut_last_pop :
    exec .ret fullStack = .next (execOr .ret fullStack) ∧ fullStack.sp.val = (15 : Fin 16).val + 1 := ⟨rfl, by decide⟩
theorem witness_CallStackIsLastInFirstOut_live :
    exec (.call 0x100#12) (oneEntry 2#16) = .next (execOr (.call 0x100#12) (oneEntry 2#16)) ∧
      (0 : Fin 16).val < (oneEntry 2#16).sp.val ∧ (0 : Fin 16).val < (execOr (.call 0x100#12) (oneEntry 2#16)).sp.val :=
  ⟨rfl, by decide⟩

theorem witness_SelfCallOverflowsWhenTheStackIsFull :
    (about 0#16 0x2000).status = .running ∧ (about 0#16 0x2000).fetch = some 0x2000#16 ∧
      decodeWord 0x2000#16 = some (.call 0x000#12) ∧ (0x000#12 : Addr).setWidth 16 = (about 0#16 0x2000).pc := by decide

theorem witness_SelfJumpNeverEnds :
    (about 0x234#16 0x1234).status = .running ∧ (about 0x234#16 0x1234).fetch = some 0x1234#16 ∧
      decodeWord 0x1234#16 = some (.jp 0x234#12) ∧ (0x234#12 : Addr).setWidth 16 = (about 0x234#16 0x1234).pc := by decide

theorem witness_SeImmSkipsOnEqual : running.reg 0x0#4 = 0x00#8 ∧ running.reg 0xF#4 ≠ 0x01#8 := by decide
theorem witness_SneImmSkipsOnUnequal : running.reg 0x0#4 ≠ 0xFF#8 ∧ running.reg 0xF#4 = 0x00#8 := by decide
theorem witness_SeRegSkipsOnEqualRegisters :
    (running.setReg 0xF#4 1#8).reg 0x1#4 = (running.setReg 0xF#4 1#8).reg 0x1#4 ∧
      (running.setReg 0xF#4 1#8).reg 0x1#4 ≠ (running.setReg 0xF#4 1#8).reg 0xF#4 ∧ (0x1#4 : BitVec 4) ≠ 0x0#4 := by decide
theorem witness_AddImmWrapsAndLeavesVf : (0xE#4 : RegIdx) ≠ 0xF#4 := by decide
theorem witness_AddRegAddsWithCarry : (0x0#4 : RegIdx) ≠ 0xF#4 := by decide
theorem witness_SubSubtractsWithBorrow : (0x1#4 : RegIdx) ≠ 0xF#4 := by decide
theorem witness_SubnSubtractsReversed : (0x2#4 : RegIdx) ≠ 0xF#4 := by decide
theorem witness_ShlShiftsOutTheTopBit : (0x4#4 : RegIdx) ≠ 0xF#4 := by decide

theorem witness_VfChangesOnlyByItsWriters_flag :
    exec (.sub 0x0#4 0x1#4) (running.setReg 0x1#4 1#8) = .next (execOr (.sub 0x0#4 0x1#4) (running.setReg 0x1#4 1#8)) ∧
      (execOr (.sub 0x0#4 0x1#4) (running.setReg 0x1#4 1#8)).reg 0xF#4 ≠ (running.setReg 0x1#4 1#8).reg 0xF#4 := ⟨rfl, by decide⟩
theorem witness_VfChangesOnlyByItsWriters_load :
    exec (.ldImm 0xF#4 0xAB#8) running = .next (execOr (.ldImm 0xF#4 0xAB#8) running) ∧
      (execOr (.ldImm 0xF#4 0xAB#8) running).reg 0xF#4 ≠ running.reg 0xF#4 := ⟨rfl, by decide⟩

theorem witness_InstructionsUseOnlyTheirRegisters :
    exec (.shl 0x4#4 0x0#4) running = .next (execOr (.shl 0x4#4 0x0#4) running) ∧
      ∀ r ∈ readRegs (.shl 0x4#4 0x0#4), ({ running with regs := running.regs.set 0 9#8 } : State).reg r = running.reg r :=
  ⟨rfl, by decide⟩
theorem witness_InstructionsUseOnlyTheirRegisters_step :
    step (about 0#16 0x601E) = .next (stepOp running 0x601E) ∧ (stepOp running 0x601E).reg 0x0#4 ≠ (about 0#16 0x601E).reg 0x0#4 :=
  ⟨rfl, by decide⟩

theorem witness_InstructionsUseOnlyTheirRegisters_step_reads :
    (about 0#16 0x840E).status = .running ∧ step (about 0#16 0x840E) = .next (stepOp running 0x840E) ∧
      ∀ op i, (about 0#16 0x840E).fetch = some op → decodeWord op = some i → ∀ r ∈ readRegs i,
        ({ about 0#16 0x840E with regs := running.regs.set 0 9#8 } : State).reg r = (about 0#16 0x840E).reg r := by
  refine ⟨rfl, rfl, fun op i hf hd => ?_⟩
  obtain rfl : 0x840E#16 = op := Option.some.inj ((by decide : (about 0#16 0x840E).fetch = some 0x840E#16).symm.trans hf)
  obtain rfl : Instr.shl 0x4#4 0x0#4 = i := Option.some.inj ((by decide : decodeWord 0x840E#16 = some (.shl 0x4#4 0x0#4)).symm.trans hd)
  decide
theorem witness_InstructionsUseOnlyTheirRegisters_step_reads_none :
    ({ running with pc := 0xFFF#16 } : State).status = .running ∧
      step { running with pc := 0xFFF#16 } = .next (State.raiseFault { running with pc := 0xFFF#16 } .addressOutOfRange none) ∧
      ({ running with pc := 0xFFF#16 } : State).fetch = none := ⟨rfl, rfl, rfl⟩
theorem witness_InstructionsUseOnlyTheirRegisters_command :
    (Command.skipAndContinue ≠ .reset) ∧ (Command.skipAndContinue ≠ .step) := by decide

theorem witness_NextPcHasSixSources :
    (about 0#16 0x2000).status = .running ∧ step (about 0#16 0x2000) = .next (stepOp running 0x2000) ∧
      (stepOp running 0x2000).status ≠ .faulted := ⟨rfl, rfl, by decide⟩
theorem witness_FaultingStepCommitsNothing :
    (about 0#16 0x00EE).status = .running ∧ step (about 0#16 0x00EE) = .next (stepOp running 0x00EE) ∧
      (stepOp running 0x00EE).status = .faulted ∧ (stepOp running 0x00EE).fault.opcodeValid = true := ⟨rfl, rfl, by decide⟩
theorem witness_FaultingStepCommitsNothing_fetch :
    ({ running with pc := 0x1002#16 } : State).status = .running ∧
      step { running with pc := 0x1002#16 } = .next (State.raiseFault { running with pc := 0x1002#16 } .addressOutOfRange none) ∧
      (State.raiseFault { running with pc := 0x1002#16 } .addressOutOfRange none).fault.opcodeValid = false := ⟨rfl, rfl, by decide⟩
theorem witness_StackFaultsComeOnlyFromCallAndRet :
    (about 0#16 0x00EE).status = .running ∧ step (about 0#16 0x00EE) = .next (stepOp running 0x00EE) := ⟨rfl, rfl⟩
theorem witness_FourFaultCausesAndNoOther :
    (about 0#16 0xFFFF).status = .running ∧ step (about 0#16 0xFFFF) = .next (stepOp running 0xFFFF) := ⟨rfl, rfl⟩
theorem witness_RunEndsOnlyByHaltOrFault :
    step (about 0#16 0x0000) = .next (stepOp running 0x0000) ∧ (about 0#16 0x0000).status = .running ∧
      step State.reset = .next State.reset ∧ State.reset.status ≠ .running := ⟨rfl, rfl, rfl, by decide⟩
theorem witness_MemoryChangesOnlyByResetAndLoadInIdle :
    exec .cls running = .next (execOr .cls running) ∧ (Command.start ≠ .reset) ∧ (∀ base bytes, Command.start ≠ .load base bytes) ∧
      running.status ≠ .idle := ⟨rfl, by decide, by simp, by decide⟩
theorem witness_DisplayRecordIsNeverRead : step (about 0#16 0x00E0) = .next (stepOp running 0x00E0) := rfl

/-- The running state is legal and its pc in range. -/
theorem running_legal : StateLegal running ∧ PcInRange running := by
  refine ⟨⟨by decide, ?_, by decide⟩, ?_⟩
  · simp [RecordLegal, running, State.reset]
  · simp [PcInRange, running, State.reset]

theorem witness_StepKeepsTheStateLegal : StateLegal running ∧ step running = .next (execOr .halt running) :=
  ⟨running_legal.1, rfl⟩
theorem witness_StepKeepsThePcInRange :
    StateLegal running ∧ PcInRange running ∧ step running = .next (execOr .halt running) := ⟨running_legal.1, running_legal.2, rfl⟩
theorem witness_CommandsKeepTheStateLegal : StateLegal running := running_legal.1
theorem witness_RunsKeepThePcInRange : RunReaches ((State.reset.after (.load 0 [0x12#8, 0x34#8])).after .start) :=
  .command _ _ (.command _ _ .reset (by decide)) (by decide)
theorem witness_CanonicalMemoriesWithEqualReadsAreEqual :
    Memory.wf (Memory.write [] 5 1#8) = true ∧ Memory.wf [(5, 1#8)] = true ∧
      ∀ a : Nat, (Memory.write [] 5 1#8).read a = Memory.read [(5, 1#8)] a := ⟨by decide, by decide, fun _ => rfl⟩

theorem witness_LoadWritesExactlyTheImage :
    State.reset.mem.wf = true ∧ State.reset.status = .idle ∧ 0xFFE + [1#8, 2#8].length ≤ 4096 := by decide
theorem witness_LoadIsRefusedOutsideIdleOrMemory :
    (running.status ≠ .idle ∨ 4096 < 0 + [1#8].length) ∧ (State.reset.status ≠ .idle ∨ 4096 < 0xFFF + [1#8, 2#8].length) := by decide
theorem witness_StartRunsFromIdleOnly : State.reset.status = .idle ∧ running.status ≠ .idle := by decide
theorem witness_SkipAndContinueLeavesTheFault : overflowed.status = .faulted ∧ running.status ≠ .faulted := by decide

/-- The Faulted state after a fetch at 0xFFFD, the last from which `A + 2` does not wrap. -/
def fetchFaulted : State := State.raiseFault { running with pc := 0xFFFD#16 } .addressOutOfRange none

theorem witness_SkipAfterFetchFaultFaultsAgain :
    StateLegal fetchFaulted ∧ fetchFaulted.status = .faulted ∧ fetchFaulted.fault.kind = .addressOutOfRange ∧
      fetchFaulted.fault.addr.toNat + 2 < 65536 := by
  refine ⟨⟨by decide, ?_, by decide⟩, by decide, by decide, by decide⟩
  simp [RecordLegal, fetchFaulted, State.raiseFault]

end Sys2Proof.Tests
end

section
/-! SUPPORT. The register file (10_state.md R15): an instruction's register writes are a list of values computed from the registers it
reads, and nothing else of the state depends on any other register. -/

namespace Sys2Proof.Machine

/-! ### Register writes in order -/

/-- The state after the register writes `ws`, the first of them first. -/
def State.writeRegs (s : State) (ws : List (RegIdx × Byte)) : State :=
  match ws with
  | [] => s
  | (i, v) :: rest => (s.setReg i v).writeRegs rest

theorem State.reg_writeRegs_of_notMem {ws : List (RegIdx × Byte)} {r : RegIdx} (h : r ∉ ws.map Prod.fst) (s : State) :
    (s.writeRegs ws).reg r = s.reg r := by
  induction ws generalizing s with
  | nil => rfl
  | cons w rest ih =>
    exact (ih (List.not_mem_of_not_mem_cons h) _).trans (State.reg_setReg_other s w.2 (List.ne_of_not_mem_cons h))

/-- A written register holds the last value written to it, whatever the registers were before. -/
theorem State.reg_writeRegs_of_mem {ws : List (RegIdx × Byte)} {r : RegIdx} (h : r ∈ ws.map Prod.fst) (s u : State) :
    (s.writeRegs ws).reg r = (u.writeRegs ws).reg r := by
  induction ws generalizing s u with
  | nil => cases h
  | cons w rest ih =>
    by_cases hrest : r ∈ rest.map Prod.fst
    · exact ih hrest _ _
    · obtain rfl : r = w.1 := (List.mem_cons.mp h).resolve_right hrest
      simp only [State.writeRegs, State.reg_writeRegs_of_notMem hrest, State.reg_setReg_same]

/-! ### The register writes of an instruction -/

/-- The register writes an instruction makes from `s`, in order. -/
def regWrites (i : Instr) (s : State) : List (RegIdx × Byte) :=
  match i with
  | .halt | .cls | .ret | .jp _ | .call _ | .seImm _ _ | .sneImm _ _ | .seReg _ _ => []
  | .ldImm x kk => [(x, kk)]
  | .addImm x kk => [(x, addResult (s.reg x) kk)]
  | .addReg x y => [(x, addResult (s.reg x) (s.reg y)), (Config.flagIndex, carryFlag (s.reg x) (s.reg y))]
  | .sub x y => [(x, subResult (s.reg x) (s.reg y)), (Config.flagIndex, borrowFlag (s.reg x) (s.reg y))]
  | .subn x y => [(x, subResult (s.reg y) (s.reg x)), (Config.flagIndex, borrowFlag (s.reg y) (s.reg x))]
  | .shl x _ => [(x, shlResult (s.reg x)), (Config.flagIndex, shlFlag (s.reg x))]

theorem map_fst_regWrites (i : Instr) (s : State) : (regWrites i s).map Prod.fst = writtenRegs i := by
  cases i <;> rfl

/-! ### Operations from a state with other registers -/

theorem State.skipIf_withRegs (s : State) (other : Vector Byte 16) (c : Bool) :
    ({ s with regs := other } : State).skipIf c = { s.skipIf c with regs := other } := by
  cases c <;> rfl

theorem State.push_withRegs (s : State) (other : Vector Byte 16) (v : Word) :
    ({ s with regs := other } : State).push v = (s.push v).map fun t => { t with regs := other } := by
  by_cases h : s.sp.val < 16 <;> simp [State.push, h]

theorem State.pop_withRegs (s : State) (other : Vector Byte 16) :
    ({ s with regs := other } : State).pop = s.pop.map fun p => (p.1, { p.2 with regs := other }) := by
  by_cases h : 0 < s.sp.val <;> simp [State.pop, h]

theorem exec_ret_withRegs {s t : State} (other : Vector Byte 16) (h : exec .ret s = .next t) :
    exec .ret { s with regs := other } = .next { t with regs := other } := by
  have hpop : ({ s with regs := other } : State).advance.pop = _ := s.advance.pop_withRegs other
  simp only [exec, execRet, hpop] at h ⊢
  cases hp : s.advance.pop <;> (rw [hp] at h; cases h; rfl)

theorem exec_call_withRegs {nnn : Addr} {s t : State} (other : Vector Byte 16) (h : exec (.call nnn) s = .next t) :
    exec (.call nnn) { s with regs := other } = .next { t with regs := other } := by
  have hpush : ({ s with regs := other } : State).advance.push (s.pc + 2#16) = _ :=
    s.advance.push_withRegs other (s.pc + 2#16)
  simp only [exec, execCall, State.advance_pc, hpush] at h ⊢
  cases hp : s.advance.push (s.pc + 2#16) <;> (rw [hp] at h; cases h; rfl)

/-! ### What an instruction reads and writes -/

/-- From other registers an instruction does the same to the rest of the state, and makes the same register writes, when the
registers it reads hold what they held. -/
theorem exec_withRegs {i : Instr} {s t : State} {other : Vector Byte 16} (h : exec i s = .next t)
    (hread : ∀ r ∈ readRegs i, ({ s with regs := other } : State).reg r = s.reg r) :
    exec i { s with regs := other } =
      .next { t with regs := (({ s with regs := other } : State).writeRegs (regWrites i s)).regs } := by
  cases i with
  | halt | cls | jp | ldImm => cases h; rfl
  | ret => exact exec_ret_withRegs other h
  | call => exact exec_call_withRegs other h
  | seImm x kk | sneImm x kk =>
    have hx := hread x (by simp [readRegs])
    cases h
    simp only [exec, execSeImm, execSneImm, hx]
    exact congrArg _ (State.skipIf_withRegs s.advance other _)
  | seReg x y =>
    have hx := hread x (by simp [readRegs])
    have hy := hread y (by simp [readRegs])
    cases h
    simp only [exec, execSeReg, hx, hy]
    exact congrArg _ (State.skipIf_withRegs s.advance other _)
  | addImm x kk | shl x y =>
    have hx := hread x (by simp [readRegs])
    cases h
    simp only [exec, execAddImm, execShl, hx]
    rfl
  | addReg x y | sub x y | subn x y =>
    have hx := hread x (by simp [readRegs])
    have hy := hread y (by simp [readRegs])
    cases h
    simp only [exec, execAddReg, execSub, execSubn, hx, hy]
    rfl

/-- The registers after an instruction are those before it with its writes made. -/
theorem exec_regs {i : Instr} {s t : State} (h : exec i s = .next t) : t.regs = (s.writeRegs (regWrites i s)).regs := by
  have hsame := Host.Outcome.next.inj (h.symm.trans (exec_withRegs (other := s.regs) h fun _ _ => rfl))
  have hregs := congrArg State.regs hsame
  exact hregs

theorem exec_reg {i : Instr} {s t : State} (h : exec i s = .next t) (r : RegIdx) :
    t.reg r = (s.writeRegs (regWrites i s)).reg r := by
  simp only [State.reg, exec_regs h]

/-- An instruction changes no register but those its row lists as written (10_state.md R15). -/
theorem exec_changes_only_writtenRegs {i : Instr} {s t : State} (h : exec i s = .next t) :
    SameRegsBut (writtenRegs i) s t := fun r hr =>
  (exec_reg h r).trans (State.reg_writeRegs_of_notMem (by rwa [map_fst_regWrites]) s)

/-- An instruction depends on no register but those its row lists as read (10_state.md R15). -/
theorem exec_depends_only_on_readRegs {i : Instr} {s t : State} {other : Vector Byte 16} (h : exec i s = .next t)
    (hread : ∀ r ∈ readRegs i, ({ s with regs := other } : State).reg r = s.reg r) :
    ∃ t', exec i { s with regs := other } = .next t' ∧ t' = { t with regs := t'.regs } ∧
      ∀ r ∈ writtenRegs i, t'.reg r = t.reg r := by
  refine ⟨_, exec_withRegs h hread, rfl, fun r hr => ?_⟩
  rw [exec_reg h]
  exact State.reg_writeRegs_of_mem (by rwa [map_fst_regWrites]) _ _

/-! ### What a step and the host's commands read and write -/

/-- A step changes a register only by the instruction it runs (10_state.md R15). -/
theorem step_changes_only_writtenRegs {s t : State} {r : RegIdx} (h : step s = .next t) (hr : t.reg r ≠ s.reg r) :
    ∃ op i, s.fetch = some op ∧ decodeWord op = some i ∧ r ∈ writtenRegs i := by
  rcases step_cases s with ⟨-, e⟩ | ⟨-, -, -, e⟩ | ⟨op, -, -, -, -, e⟩ | ⟨op, i, -, -, hf, hd, e⟩ <;> rw [e] at h
  case inr.inr.inr =>
    exact ⟨op, i, hf, hd, by_contra fun hw => hr (exec_changes_only_writtenRegs h r hw)⟩
  all_goals cases h; exact absurd rfl hr

/-- A step in Running depends on no register but those the fetched instruction reads: fetch, decode and fault entry read none
(10_state.md R15). -/
theorem step_depends_only_on_readRegs {s t : State} {other : Vector Byte 16} (hrun : s.status = .running)
    (h : step s = .next t)
    (hread : ∀ op i, s.fetch = some op → decodeWord op = some i →
      ∀ r ∈ readRegs i, ({ s with regs := other } : State).reg r = s.reg r) :
    ∃ t', step { s with regs := other } = .next t' ∧ t' = { t with regs := t'.regs } ∧
      ∀ op i, s.fetch = some op → decodeWord op = some i → ∀ r ∈ writtenRegs i, t'.reg r = t.reg r := by
  cases hf : s.fetch with
  | none =>
    rw [step_of_fetch_none hrun hf] at h
    cases h
    exact ⟨_, step_of_fetch_none (s := { s with regs := other }) hrun hf, rfl, by simp⟩
  | some op =>
    cases hd : decodeWord op with
    | none =>
      rw [step_of_unknown hrun hf hd] at h
      cases h
      exact ⟨_, step_of_unknown (s := { s with regs := other }) hrun hf hd, rfl, fun _ i hop hi => by cases hop; simp [hd] at hi⟩
    | some i =>
      rw [step_of_decode hrun hf hd] at h
      obtain ⟨t', ht', hrest, hwritten⟩ := exec_depends_only_on_readRegs h (hread op i hf hd)
      refine ⟨t', (step_of_decode (s := { s with regs := other }) hrun hf hd).trans ht', hrest, fun _ j hop hj => ?_⟩
      cases hop
      obtain rfl := Option.some.inj (hd.symm.trans hj)
      exact hwritten

/-- Load, Start and SkipAndContinue neither read nor write a register (10_state.md R15). -/
theorem State.after_withRegs (s : State) {c : Command} (other : Vector Byte 16) (hreset : c ≠ .reset) (hstep : c ≠ .step) :
    ({ s with regs := other } : State).after c = { s.after c with regs := other } ∧ (s.after c).regs = s.regs := by
  cases c with
  | reset => exact absurd rfl hreset
  | step => exact absurd rfl hstep
  | load base bytes =>
    by_cases h : s.status = .idle ∧ imageFits base bytes = true <;> simp [State.after, State.command, State.load, h]
  | start =>
    by_cases h : s.status = .idle <;> simp [State.after, State.command, State.start, State.setStatus, h]
  | skipAndContinue =>
    by_cases h : s.status = .faulted <;> simp [State.after, State.command, State.skipAndContinue, State.skipFault, h]

/-- Settles O33: an instruction's register writes are computed from the registers it reads, and fetch, decoding, fault entry and
the host's commands touch none. -/
theorem instructionsUseOnlyTheirRegisters : Obligations.InstructionsUseOnlyTheirRegisters :=
  ⟨fun _ _ _ _ h => ⟨exec_changes_only_writtenRegs h, exec_depends_only_on_readRegs h⟩,
    fun _ _ _ => step_changes_only_writtenRegs,
    fun _ _ _ => step_depends_only_on_readRegs,
    fun s _ other => s.after_withRegs other,
    fun _ _ => rfl⟩

end Sys2Proof.Machine
end

section
/-! SUPPORT. The decoder against the opcode table: the fields as numbers (30_encoding.md R48) and the rows by match and mask
(30_encoding.md R52). -/

namespace Sys2Proof

/-! ### The fields as numbers -/

/-- A bit range of an opcode, as a number, is a quotient and a remainder. -/
theorem toNat_extractLsb'_eq_div_mod (op : Word) (start len : Nat) :
    (op.extractLsb' start len).toNat = op.toNat / 2 ^ start % 2 ^ len := by
  rw [BitVec.extractLsb'_toNat, Nat.shiftRight_eq_div_pow]

/-- The class is the top field: nothing stands above it to be cut off. -/
theorem toNat_classField (op : Word) : (classField op).toNat = op.toNat / 2 ^ 12 := by
  have hlt : op.toNat / 2 ^ 12 < 2 ^ 4 := by have := op.isLt; omega
  rw [classField, toNat_extractLsb'_eq_div_mod, Nat.mod_eq_of_lt hlt]

/-- A field that ends at bit 0 is the remainder alone. -/
theorem toNat_extractLsb'_zero_eq_mod (op : Word) (len : Nat) : (op.extractLsb' 0 len).toNat = op.toNat % 2 ^ len := by
  rw [toNat_extractLsb'_eq_div_mod, Nat.pow_zero, Nat.div_one]

/-- Settles O5: each field is a bit range of the opcode, and a bit range is a quotient and a remainder. -/
theorem decoderExtractsEveryField : Obligations.DecoderExtractsEveryField := fun op =>
  ⟨toNat_classField op, toNat_extractLsb'_eq_div_mod op 8 4, toNat_extractLsb'_eq_div_mod op 4 4,
    toNat_extractLsb'_zero_eq_mod op 4, toNat_extractLsb'_zero_eq_mod op 12, toNat_extractLsb'_zero_eq_mod op 8, rfl⟩

/-! ### The rows by match and mask -/

/-- The mask `0xFFFF` keeps the whole opcode. -/
theorem and_full_mask (op : Word) : op &&& 0xFFFF#16 = op := BitVec.and_allOnes

/-- An operation that some class pattern selects is selected by the class pattern alone. -/
theorem opTag_eq_iff_of_classTag (op : Word) {c d : BitVec 4} {t : OpTag} (h : classTag c d = t) (hu : t ≠ .unknown) :
    opTag op = t ↔ classTag (classField op) (dField op) = t := by
  obtain ⟨hhalt, hcls, hret⟩ := classTag_ne_exact c d
  rw [h] at hhalt hcls hret
  exact opTag_eq_iff_classTag op hhalt hcls hret hu

/-- A row keyed on the class has the mask `0xF000`. -/
theorem opTag_eq_iff_and_class_mask (op : Word) {c : BitVec 4} {t : OpTag}
    (hrow : ∀ c' d', classTag c' d' = t ↔ c' = c) (hu : t ≠ .unknown) :
    opTag op = t ↔ op &&& 0xF000#16 = c ++ 0x000#12 := by
  rw [opTag_eq_iff_of_classTag op ((hrow c 0x0#4).2 rfl) hu, hrow, and_class_mask]

/-- A row keyed on the class and `d` has the mask `0xF00F`. -/
theorem opTag_eq_iff_and_class_d_mask (op : Word) {c d : BitVec 4} {t : OpTag}
    (hrow : ∀ c' d', classTag c' d' = t ↔ c' = c ∧ d' = d) (hu : t ≠ .unknown) :
    opTag op = t ↔ op &&& 0xF00F#16 = c ++ 0x00#8 ++ d := by
  rw [opTag_eq_iff_of_classTag op ((hrow c d).2 ⟨rfl, rfl⟩) hu, hrow, and_class_d_mask]

/-- Where the rows select their tags and between them name every tag but `unknown`, `unknown` is what no row selects. -/
theorem opTag_eq_unknown_iff_no_row {op : Word} {rows : List (BitVec 16 × BitVec 16 × OpTag)}
    (hrows : ∀ r ∈ rows, (opTag op = r.2.2 ↔ op &&& r.2.1 = r.1))
    (hcover : ∀ t : OpTag, t ∈ rows.map (·.2.2) ↔ t ≠ .unknown) :
    opTag op = .unknown ↔ ∀ r ∈ rows, op &&& r.2.1 ≠ r.1 := by
  calc opTag op = .unknown
      ↔ opTag op ∉ rows.map (·.2.2) := by rw [hcover, not_not]
    _ ↔ ∀ r ∈ rows, opTag op ≠ r.2.2 := by simp only [List.mem_map, not_exists, not_and, ne_eq, eq_comm]
    _ ↔ ∀ r ∈ rows, op &&& r.2.1 ≠ r.1 := forall₂_congr fun r hr => not_congr (hrows r hr)

/-- Settles O3, row by row: three exact values, six rows keyed on the class, five keyed on the class and `d`; together they name
every tag but `unknown`. -/
theorem opcodeTableRowsSelectTheTags : Obligations.OpcodeTableRowsSelectTheTags := by
  intro op rows
  have hrows : ∀ r ∈ rows, (opTag op = r.2.2 ↔ op &&& r.2.1 = r.1) := by
    simp only [rows, List.forall_mem_cons, and_full_mask]
    exact ⟨opTag_eq_halt op, opTag_eq_cls op, opTag_eq_ret op,
      opTag_eq_iff_and_class_mask op classTag_eq_jp (by decide),
      opTag_eq_iff_and_class_mask op classTag_eq_call (by decide),
      opTag_eq_iff_and_class_mask op classTag_eq_seImm (by decide),
      opTag_eq_iff_and_class_mask op classTag_eq_sneImm (by decide),
      opTag_eq_iff_and_class_d_mask op classTag_eq_seReg (by decide),
      opTag_eq_iff_and_class_mask op classTag_eq_ldImm (by decide),
      opTag_eq_iff_and_class_mask op classTag_eq_addImm (by decide),
      opTag_eq_iff_and_class_d_mask op classTag_eq_addReg (by decide),
      opTag_eq_iff_and_class_d_mask op classTag_eq_sub (by decide),
      opTag_eq_iff_and_class_d_mask op classTag_eq_subn (by decide),
      opTag_eq_iff_and_class_d_mask op classTag_eq_shl (by decide),
      List.forall_mem_nil _⟩
  have hcover : ∀ t : OpTag, t ∈ rows.map (·.2.2) ↔ t ≠ .unknown := by
    intro t
    cases t <;> decide
  exact ⟨hrows, opTag_eq_unknown_iff_no_row hrows hcover⟩

end Sys2Proof
end

section
/-! SUPPORT. The next ProgramCounter (40_fetch_execute_cycle.md R65): a faulting step holds it, and every other step takes it from the
source its instruction selects. -/

namespace Sys2Proof.Machine

/-! ### HOLD -/

/-- An instruction that ends Faulted was undone: only fault entry separates the two states (40_fetch_execute_cycle.md R68). -/
theorem exec_faulted_eq_raiseFault {i : Instr} {s t : State} (hrun : s.status = .running) (h : exec i s = .next t)
    (ht : t.status = .faulted) : ∃ kind, t = s.raiseFault kind (some (encode i)) := by
  have hkept : t.status ≠ s.status := by simp [ht, hrun]
  cases i with
  | halt => cases h; cases ht
  | cls | jp | ldImm | addImm | addReg | sub | subn | shl => cases h; exact absurd rfl hkept
  | seImm | sneImm | seReg => cases h; exact absurd (State.skipIf_status _ _) hkept
  | ret =>
    rcases exec_ret_cases s with ⟨-, e⟩ | ⟨u, -, e, -, -, -, -, hstatus, -⟩ <;> rw [e] at h <;> cases h
    · exact ⟨_, rfl⟩
    · exact absurd hstatus hkept
  | call nnn =>
    rcases exec_call_cases nnn s with ⟨-, e⟩ | ⟨u, -, e, -, -, -, -, hstatus, -⟩ <;> rw [e] at h <;> cases h
    · exact ⟨_, rfl⟩
    · exact absurd hstatus hkept

/-- A step that ends Faulted is fault entry from the state at its start, and nothing else (40_fetch_execute_cycle.md R68). -/
theorem step_faulted_eq_raiseFault {s t : State} (hrun : s.status = .running) (h : step s = .next t)
    (ht : t.status = .faulted) : ∃ kind op, t = s.raiseFault kind op := by
  rcases step_cases s with ⟨hne, -⟩ | ⟨-, -, -, e⟩ | ⟨op, -, -, -, -, e⟩ | ⟨op, i, -, -, -, -, e⟩
  · exact absurd hrun hne
  · exact ⟨_, _, Host.Outcome.next.inj (h.symm.trans e)⟩
  · exact ⟨_, _, Host.Outcome.next.inj (h.symm.trans e)⟩
  · obtain ⟨kind, hraise⟩ := exec_faulted_eq_raiseFault hrun (e.symm.trans h) ht
    exact ⟨kind, _, hraise⟩

/-- A step that does not end Faulted ran the instruction it fetched. -/
theorem step_not_faulted_runs_instruction {s t : State} (hrun : s.status = .running) (h : step s = .next t)
    (ht : t.status ≠ .faulted) : ∃ op i, s.fetch = some op ∧ decodeWord op = some i ∧ exec i s = .next t := by
  rcases step_cases s with ⟨hne, -⟩ | ⟨-, -, -, e⟩ | ⟨op, -, -, -, -, e⟩ | ⟨op, i, -, -, hf, hd, e⟩
  · exact absurd hrun hne
  · cases e.symm.trans h; exact absurd rfl ht
  · cases e.symm.trans h; exact absurd rfl ht
  · exact ⟨op, i, hf, hd, e.symm.trans h⟩

/-! ### The sources an instruction selects -/

/-- `t` has the pc that instruction `i` selects from `s`: SEQ, SKIP, JP, CALL with the return address pushed, or RET. -/
def SelectsPc (i : Instr) (s t : State) : Prop :=
  match i with
  | .halt | .cls | .ldImm _ _ | .addImm _ _ | .addReg _ _ | .sub _ _ | .subn _ _ | .shl _ _ => t.pc = s.pc + 2#16
  | .seImm x kk => t.pc = if s.reg x = kk then s.pc + 4#16 else s.pc + 2#16
  | .sneImm x kk => t.pc = if s.reg x ≠ kk then s.pc + 4#16 else s.pc + 2#16
  | .seReg x y => t.pc = if s.reg x = s.reg y then s.pc + 4#16 else s.pc + 2#16
  | .jp nnn => t.pc = nnn.setWidth 16
  | .call nnn => t.pc = nnn.setWidth 16 ∧ ∃ k : Fin 16, k.val = s.sp.val ∧ t.stack.get k = s.pc + 2#16
  | .ret => ∃ k : Fin 16, s.sp.val = k.val + 1 ∧ t.pc = s.stack.get k

/-- The fetch advance and the extra advance of a skip add up to 4. -/
theorem State.advance_skipIf_pc (s : State) (c : Bool) :
    (s.advance.skipIf c).pc = if c then s.pc + 4#16 else s.pc + 2#16 := by
  rw [State.skipIf_pc, State.advance_pc, BitVec.add_assoc]
  rfl

theorem exec_ret_selectsPc {s t : State} (h : exec .ret s = .next t) (ht : t.status ≠ .faulted) : SelectsPc .ret s t := by
  rcases exec_ret_cases s with ⟨-, e⟩ | ⟨u, hpos, e, hpc, -⟩ <;> cases e.symm.trans h
  · exact absurd rfl ht
  · exact ⟨_, (Nat.sub_add_cancel hpos).symm, hpc⟩

theorem exec_call_selectsPc {nnn : Addr} {s t : State} (h : exec (.call nnn) s = .next t) (ht : t.status ≠ .faulted) :
    SelectsPc (.call nnn) s t := by
  rcases exec_call_cases nnn s with ⟨-, e⟩ | ⟨u, hlt, e, hpc, -, hstack, -⟩ <;> cases e.symm.trans h
  · exact absurd rfl ht
  · exact ⟨hpc, ⟨s.sp.val, hlt⟩, rfl, (hstack _).trans (if_pos rfl)⟩

/-- An instruction that does not fault leaves the pc it selects (40_fetch_execute_cycle.md R65). -/
theorem exec_selectsPc {i : Instr} {s t : State} (h : exec i s = .next t) (ht : t.status ≠ .faulted) : SelectsPc i s t := by
  cases i with
  | halt | cls | ldImm | addImm | addReg | sub | subn | shl | jp => cases h; rfl
  | seImm | sneImm | seReg =>
    cases h
    simp only [SelectsPc, State.advance_skipIf_pc, Bool.not_eq_true', ← Bool.not_eq_true, eqBytes_eq_true, ne_eq]
  | ret => exact exec_ret_selectsPc h ht
  | call => exact exec_call_selectsPc h ht

/-- Settles O34: fault entry holds the pc, and a step that does not fault ran the fetched instruction, which selects the next one. -/
theorem nextPcHasSixSources : Obligations.NextPcHasSixSources := by
  intro s t hrun h
  constructor
  · intro ht
    obtain ⟨kind, op, rfl⟩ := step_faulted_eq_raiseFault hrun h ht
    exact s.raiseFault_pc kind op
  · intro ht
    obtain ⟨op, i, hf, hd, hexec⟩ := step_not_faulted_runs_instruction hrun h ht
    exact ⟨op, i, hf, hd, exec_selectsPc hexec ht⟩

end Sys2Proof.Machine
end

section
/-! SUPPORT. Control transfer (42_control_transfer.md): JP and CALL set pc to their target, CALL with its return address pushed or
its fault taken; and what fault entry leaves, for every fault. -/

namespace Sys2Proof.Machine

/-! ### What stays the same, from the fields that are equal -/

theorem SameRegsBut.of_regs_eq {written : List RegIdx} {s t : State} (h : t.regs = s.regs) : SameRegsBut written s t :=
  fun r _ => by rw [State.reg, State.reg, h]

theorem SameMemory.of_mem_eq {s t : State} (h : t.mem = s.mem) : SameMemory s t := fun a => congrArg (·.read a) h

/-- Fault entry writes `status` and the record, and nothing else (60_exceptions.md R91). -/
theorem State.raiseFault_faults (s : State) (kind : FaultKind) (op : Option Word) :
    Faults s (s.raiseFault kind op) kind (op.getD 0x0000#16) op.isSome :=
  ⟨rfl, rfl, rfl, fun _ _ => rfl, ⟨rfl, fun _ => rfl⟩, fun _ => rfl, rfl⟩

/-! ### The target -/

/-- No bit of an address is lost where it becomes a pc. -/
theorem toNat_setWidth_addr (nnn : Addr) : (nnn.setWidth 16).toNat = nnn.toNat :=
  BitVec.toNat_setWidth_of_le (by decide)

/-- The class and the target of a CALL share no bit, so the opcode is their sum (30_encoding.md R52). -/
theorem encode_call_eq_add (nnn : Addr) : encode (.call nnn) = 0x2000#16 + nnn.setWidth 16 := by
  apply BitVec.eq_of_toNat_eq
  have hlt := nnn.isLt
  rw [encode, BitVec.toNat_append, ← Nat.shiftLeft_add_eq_or_of_lt hlt, BitVec.toNat_add, toNat_setWidth_addr]
  simp only [BitVec.toNat_ofNat, Nat.shiftLeft_eq]
  omega

/-! ### JP -/

/-- Setting pc to the value it has changes nothing. -/
theorem State.setPc_eq_self {s : State} {target : Word} (h : s.pc = target) : s.setPc target = s := by
  subst h
  rfl

/-- The jump overwrites the fetch advance (42_control_transfer.md R74). -/
theorem exec_jp (nnn : Addr) (s : State) : exec (.jp nnn) s = .next (s.setPc (nnn.setWidth 16)) := rfl

theorem State.setPc_changesOnly (s : State) (target : Word) : ChangesOnly [] s (s.setPc target) :=
  ⟨fun _ _ => rfl, ⟨rfl, fun _ => rfl⟩, fun _ => rfl, rfl, rfl, rfl⟩

/-- A step in Running with pc at 0xFFF or above faults in its fetch (60_exceptions.md R97). -/
theorem step_faults_of_pc_outOfRange {s : State} (hrun : s.status = .running) (hpc : 0xFFF ≤ s.pc.toNat) :
    ∃ t, step s = .next t ∧ Faults s t .addressOutOfRange 0x0000#16 false :=
  ⟨_, step_of_fetch_none hrun (s.fetch_outOfRange hpc), s.raiseFault_faults .addressOutOfRange none⟩

/-- Settles O16: JP is an update of pc alone, so a jump to the pc itself is no update, and one to 0xFFF leaves a pc that no fetch
takes. -/
theorem jpSetsThePc : Obligations.JpSetsThePc := by
  refine ⟨Laws.RoundTrip.jp, fun nnn s =>
    ⟨_, exec_jp nnn s, toNat_setWidth_addr nnn, s.setPc_changesOnly _, fun hself => ?_, fun hlast hrun => ?_⟩⟩
  · exact State.setPc_eq_self (BitVec.eq_of_toNat_eq (hself.trans (toNat_setWidth_addr nnn).symm))
  · subst hlast
    exact step_faults_of_pc_outOfRange hrun (toNat_setWidth_addr 0xFFF#12).ge

/-! ### CALL -/

/-- A CALL from a full stack takes the overflow fault, with its own opcode in the record (42_control_transfer.md R75). -/
theorem exec_call_faults_of_full {s : State} (nnn : Addr) (hfull : s.sp.val = 16) :
    ∃ t, exec (.call nnn) s = .next t ∧ Faults s t .stackOverflow (0x2000#16 + nnn.setWidth 16) true := by
  rcases exec_call_cases nnn s with ⟨-, e⟩ | ⟨_, hlt, -⟩
  · rw [encode_call_eq_add] at e
    exact ⟨_, e, s.raiseFault_faults .stackOverflow (some _)⟩
  · omega

/-- A CALL from a stack with room pushes the return address and jumps (42_control_transfer.md R75). -/
theorem exec_call_pushes_of_room {s : State} (nnn : Addr) (k : Fin 16) (hk : s.sp.val = k.val) :
    ∃ t, exec (.call nnn) s = .next t ∧ t.pc.toNat = nnn.toNat ∧ t.sp.val = k.val + 1 ∧
      t.stack.get k = s.pc + 2#16 ∧ (∀ j : Fin 16, j ≠ k → t.stack.get j = s.stack.get j) ∧
      SameRegsBut [] s t ∧ SameMemory s t ∧ SameRunControl s t := by
  rcases exec_call_cases nnn s with ⟨hfull, -⟩ | ⟨t, -, e, hpc, hsp, hstack, hregs, hstatus, hfault, hmem, hclears⟩
  · omega
  · simp only [hk, Fin.val_inj] at hsp hstack
    exact ⟨t, e, hpc ▸ toNat_setWidth_addr nnn, hsp, (hstack k).trans (if_pos rfl),
      fun j hj => (hstack j).trans (if_neg hj), .of_regs_eq hregs, .of_mem_eq hmem, hstatus, hfault, hclears⟩

/-- Settles O17: the two clauses are CALL's two cases, a full stack and a stack with room. -/
theorem callPushesOrOverflows : Obligations.CallPushesOrOverflows :=
  ⟨Laws.RoundTrip.call, fun nnn _ => ⟨exec_call_faults_of_full nnn, exec_call_pushes_of_room nnn⟩⟩

end Sys2Proof.Machine
end

section
/-! SUPPORT. The conditional skips (43_skip.md): an instruction that only advances past a condition skips exactly when the condition
holds, and changes nothing but pc. -/

namespace Sys2Proof.Machine

/-! ### The condition -/

/-- The condition of SNE is the comparator's complement (43_skip.md R78). -/
theorem not_eqBytes_eq_true (a b : Byte) : (!eqBytes a b) = true ↔ a ≠ b := by
  rw [Bool.not_eq_true', ← Bool.not_eq_true, eqBytes_eq_true]

/-! ### The advance -/

theorem State.advance_skipIf_changesOnly (s : State) (c : Bool) : ChangesOnly [] s (s.advance.skipIf c) :=
  ⟨.of_regs_eq (State.skipIf_regs _ c),
    ⟨State.skipIf_sp _ c, fun i => congrArg (·.get i) (State.skipIf_stack _ c)⟩,
    .of_mem_eq (State.skipIf_mem _ c),
    State.skipIf_status _ c, State.skipIf_fault _ c, State.skipIf_displayClears _ c⟩

/-- What every conditional skip does: the extra advance exactly when its condition `p` holds, and nothing else
(43_skip.md R77 to R79). -/
theorem exec_skips_iff {i : Instr} {s : State} {c : Bool} {p : Prop} (hexec : exec i s = .next (s.advance.skipIf c))
    (hc : c = true ↔ p) :
    ∃ t, exec i s = .next t ∧ (p → t.pc = s.pc + 4#16) ∧ (¬ p → t.pc = s.pc + 2#16) ∧ ChangesOnly [] s t := by
  have hpc := s.advance_skipIf_pc c
  exact ⟨_, hexec, fun hp => hpc.trans (if_pos (hc.2 hp)), fun hp => hpc.trans (if_neg (mt hc.1 hp)),
    s.advance_skipIf_changesOnly c⟩

/-! ### The opcodes `5xyN` -/

/-- In class 5 only `d = 0` is an operation (30_encoding.md R52). -/
theorem classTag_class_five_of_ne_zero {d : BitVec 4} (hd : d ≠ 0x0#4) : classTag 0x5#4 d = .unknown := by
  revert d
  decide

theorem decodeWord_class_five_of_ne_zero (x y : RegIdx) {d : BitVec 4} (hd : d ≠ 0x0#4) :
    decodeWord (0x5#4 ++ x ++ y ++ d) = none := by
  obtain ⟨hclass, -, -, hfield⟩ := fields_of_reg 0x5#4 x y d
  rw [decodeWord_eq_none_iff, opTag_of_class (by rw [hclass]; decide), hclass, hfield]
  exact classTag_class_five_of_ne_zero hd

/-! ### The three skips -/

/-- Settles O22: the condition is the comparator's on `V[x]` and `kk`. -/
theorem seImmSkipsOnEqual : Obligations.SeImmSkipsOnEqual :=
  ⟨Laws.RoundTrip.seImm, fun _ _ _ => exec_skips_iff rfl (eqBytes_eq_true _ _)⟩

/-- Settles O23: the condition is the comparator's complement, and a failed inequality is an equality. -/
theorem sneImmSkipsOnUnequal : Obligations.SneImmSkipsOnUnequal := by
  refine ⟨Laws.RoundTrip.sneImm, fun x kk s => ?_⟩
  obtain ⟨t, hexec, hskip, hseq, hframe⟩ := exec_skips_iff (i := .sneImm x kk) (s := s) rfl (not_eqBytes_eq_true _ _)
  exact ⟨t, hexec, hskip, fun heq => hseq (not_not_intro heq), hframe⟩

/-- Settles O24: the condition is the comparator's on `V[x]` and `V[y]`; of the opcodes `5xyN` only `N = 0` decodes. -/
theorem seRegSkipsOnEqualRegisters : Obligations.SeRegSkipsOnEqualRegisters :=
  ⟨Laws.RoundTrip.seReg, fun x y _ hn => decodeWord_class_five_of_ne_zero x y hn,
    fun _ _ _ => exec_skips_iff rfl (eqBytes_eq_true _ _)⟩

end Sys2Proof.Machine
end

section
/-! SUPPORT. The immediate instructions (44_immediate.md): the fetch advance and one register write, so that VF is a register like any
other. -/

namespace Sys2Proof.Machine

/-! ### The sum -/

theorem toNat_addResult (a b : Byte) : (addResult a b).toNat = (a.toNat + b.toNat) % 256 :=
  BitVec.toNat_ofNat _ 8

/-! ### One register write -/

theorem State.advance_setReg_changesOnly (s : State) (x : RegIdx) (v : Byte) : ChangesOnly [x] s (s.advance.setReg x v) :=
  ⟨fun _ hr => State.reg_setReg_other s.advance v (List.ne_of_not_mem_cons hr), ⟨rfl, fun _ => rfl⟩, fun _ => rfl,
    rfl, rfl, rfl⟩

/-- What both immediate instructions do: `V[x]` takes the value `v`, pc advances, and nothing else changes
(44_immediate.md R80, R81). -/
theorem exec_writes_reg {i : Instr} {s : State} {x : RegIdx} {v : Byte} (hexec : exec i s = .next (s.advance.setReg x v)) :
    ∃ t, exec i s = .next t ∧ t.reg x = v ∧ t.pc = s.pc + 2#16 ∧ ChangesOnly [x] s t :=
  ⟨_, hexec, State.reg_setReg_same s.advance x v, s.advance_pc, s.advance_setReg_changesOnly x v⟩

/-! ### The two instructions -/

/-- Settles O25: the value written is `kk`. -/
theorem ldImmLoadsTheImmediate : Obligations.LdImmLoadsTheImmediate :=
  ⟨Laws.RoundTrip.ldImm, fun _ _ _ => exec_writes_reg rfl⟩

/-- Settles O26: the value written is the sum modulo 256, and VF is among the registers kept unless it is the destination. -/
theorem addImmWrapsAndLeavesVf : Obligations.AddImmWrapsAndLeavesVf := by
  refine ⟨Laws.RoundTrip.addImm, fun x kk s => ?_⟩
  obtain ⟨t, hexec, hsum, hpc, hregs, hrest⟩ := exec_writes_reg (i := .addImm x kk) (s := s) rfl
  have hvf (hx : x ≠ 0xF#4) : t.reg 0xF#4 = s.reg 0xF#4 := hregs _ (mt List.mem_singleton.1 hx.symm)
  exact ⟨t, hexec, hsum ▸ toNat_addResult _ _, hvf, hpc, hregs, hrest⟩

end Sys2Proof.Machine
end

section
/-! SUPPORT. Register arithmetic (45_alu_register.md): each instruction of class 8 is the fetch advance and one write of an alu_core
result with its flag, so it is settled by the alu_core's values on unbounded numbers. -/

namespace Sys2Proof.Machine

/-! ### The flags -/

/-- A flag, as a number, is 1 exactly where its condition holds (45_alu_register.md R84). -/
theorem toNat_flagByte_decide (p : Prop) [Decidable p] : (flagByte (decide p)).toNat = if p then 1 else 0 := by
  by_cases hp : p <;> simp [flagByte, hp]

theorem getLsbD_zero_flagByte (c : Bool) : (flagByte c).getLsbD 0 = c := by
  cases c <;> rfl

theorem toNat_carryFlag (a b : Byte) : (carryFlag a b).toNat = if a.toNat + b.toNat > 255 then 1 else 0 :=
  toNat_flagByte_decide _

theorem toNat_borrowFlag (a b : Byte) : (borrowFlag a b).toNat = if a.toNat < b.toNat then 1 else 0 :=
  toNat_flagByte_decide _

/-- Bit 7 is the quotient by 128: nothing stands above it. -/
theorem toNat_shlFlag (a : Byte) : (shlFlag a).toNat = a.toNat / 2 ^ 7 := by
  have hlt : a.toNat / 2 ^ 7 < 2 := by have := a.isLt; omega
  rw [shlFlag, BitVec.getLsbD, Nat.testBit_eq_decide_div_mod_eq, toNat_flagByte_decide, Nat.mod_eq_of_lt hlt]
  split <;> omega

/-- The carry is the top bit of the 9-bit sum, which no pair of bytes overflows (45_alu_register.md R83). -/
theorem getLsbD_zero_carryFlag (a b : Byte) :
    (carryFlag a b).getLsbD 0 = (a.setWidth 9 + b.setWidth 9).getLsbD 8 := by
  have hsum : (a.setWidth 9 + b.setWidth 9).toNat = a.toNat + b.toNat := by
    rw [BitVec.toNat_add, BitVec.toNat_setWidth_of_le (by decide), BitVec.toNat_setWidth_of_le (by decide)]
    omega
  rw [carryFlag, getLsbD_zero_flagByte, BitVec.getLsbD, hsum, Nat.testBit_eq_decide_div_mod_eq, decide_eq_decide]
  omega

/-! ### The difference and the shift -/

theorem toNat_subResult (a b : Byte) : ((subResult a b).toNat : Int) = ((a.toNat : Int) - (b.toNat : Int)) % 256 := by
  rw [subResult, BitVec.toNat_ofInt, Int.toNat_of_nonneg (Int.emod_nonneg _ (by decide))]
  rfl

theorem toNat_shlResult (a : Byte) : (shlResult a).toNat = (a.toNat * 2) % 256 :=
  BitVec.toNat_ofNat _ 8

/-! ### The write of a result with its flag -/

/-- The result stays in its register unless that is VF, which the flag overwrites (45_alu_register.md R84). -/
theorem State.reg_writeResultAndFlag_result (s : State) {x : RegIdx} (r f : Byte) (hx : x ≠ 0xF#4) :
    (s.writeResultAndFlag x r f).reg x = r := by
  rw [State.reg_writeResultAndFlag, if_neg hx, if_pos rfl]

theorem State.advance_writeResultAndFlag_changesOnly (s : State) (x : RegIdx) (r f : Byte) :
    ChangesOnly [x, 0xF#4] s (s.advance.writeResultAndFlag x r f) := by
  refine ⟨fun j hj => ?_, ⟨rfl, fun _ => rfl⟩, fun _ => rfl, rfl, rfl, rfl⟩
  obtain ⟨hx, hf⟩ : j ≠ x ∧ j ≠ 0xF#4 := by simpa using hj
  rw [State.reg_writeResultAndFlag, if_neg hf, if_neg hx, State.reg_advance]

/-- What every instruction of class 8 does: `V[x]` takes the result, VF ends with the flag, pc advances, and nothing else changes
(45_alu_register.md R84). -/
theorem exec_writes_result_and_flag {i : Instr} {s : State} {x : RegIdx} {r f : Byte}
    (hexec : exec i s = .next (s.advance.writeResultAndFlag x r f)) :
    ∃ t, exec i s = .next t ∧ (x ≠ 0xF#4 → t.reg x = r) ∧ t.reg 0xF#4 = f ∧ t.pc = s.pc + 2#16 ∧
      ChangesOnly [x, 0xF#4] s t :=
  ⟨_, hexec, s.advance.reg_writeResultAndFlag_result r f, s.advance.reg_writeResultAndFlag_flag x r f, s.advance_pc,
    s.advance_writeResultAndFlag_changesOnly x r f⟩

/-! ### The four instructions and the alu_core's table -/

/-- Settles O27: the result is the sum modulo 256 and the flag the carry, both of the start-of-step operands. -/
theorem addRegAddsWithCarry : Obligations.AddRegAddsWithCarry := by
  refine ⟨Laws.RoundTrip.addReg, fun x y s => ?_⟩
  obtain ⟨t, hexec, hsum, hcarry, hpc, hframe⟩ := exec_writes_result_and_flag (i := .addReg x y) (s := s) rfl
  exact ⟨t, hexec, fun hx => hsum hx ▸ toNat_addResult _ _, hcarry ▸ toNat_carryFlag _ _, hpc, hframe⟩

/-- Settles O28: the result is the difference modulo 256 and the flag the borrow. -/
theorem subSubtractsWithBorrow : Obligations.SubSubtractsWithBorrow := by
  refine ⟨Laws.RoundTrip.sub, fun x y s => ?_⟩
  obtain ⟨t, hexec, hdiff, hborrow, hpc, hframe⟩ := exec_writes_result_and_flag (i := .sub x y) (s := s) rfl
  exact ⟨t, hexec, fun hx => hdiff hx ▸ toNat_subResult _ _, hborrow ▸ toNat_borrowFlag _ _, hpc, hframe⟩

/-- Settles O29: the difference and the borrow are those of SUB with the operands exchanged. -/
theorem subnSubtractsReversed : Obligations.SubnSubtractsReversed := by
  refine ⟨Laws.RoundTrip.subn, fun x y s => ?_⟩
  obtain ⟨t, hexec, hdiff, hborrow, hpc, hframe⟩ := exec_writes_result_and_flag (i := .subn x y) (s := s) rfl
  exact ⟨t, hexec, fun hx => hdiff hx ▸ toNat_subResult _ _, hborrow ▸ toNat_borrowFlag _ _, hpc, hframe⟩

/-- Settles O30: the result and the flag are of `V[x]` alone. -/
theorem shlShiftsOutTheTopBit : Obligations.ShlShiftsOutTheTopBit := by
  refine ⟨Laws.RoundTrip.shl, fun x y s => ?_⟩
  obtain ⟨t, hexec, hshift, hbit, hpc, hframe⟩ := exec_writes_result_and_flag (i := .shl x y) (s := s) rfl
  exact ⟨t, hexec, fun hx => (hshift hx).trans (shlResult_eq _), hbit ▸ toNat_shlFlag _, hpc, hframe⟩

/-- Settles O31: one lemma for each entry of the table; that the borrow's difference is negative is that its operands are in order. -/
theorem aluCoreComputesItsTable : Obligations.AluCoreComputesItsTable := by
  intro a b
  have hborrow : a.toNat < b.toNat ↔ (a.toNat : Int) - (b.toNat : Int) < 0 := by omega
  exact ⟨toNat_addResult a b, toNat_carryFlag a b, getLsbD_zero_carryFlag a b, toNat_subResult a b,
    (toNat_borrowFlag a b).trans (if_congr hborrow rfl rfl), toNat_shlResult a, toNat_shlFlag a, eqBytes_eq_true a b⟩

end Sys2Proof.Machine
end

section
/-! SUPPORT. The fault taxonomy (60_exceptions.md): each kind of fault has one cause in the state at the start of the step, and a step
in Running takes that fault exactly when its cause holds. -/

namespace Sys2Proof.Machine

/-! ### The cause of each kind of fault -/

/-- The cause of a fault of this kind in the start-of-step state (60_exceptions.md R93 to R97). -/
def FaultCause (s : State) (kind : FaultKind) : Prop :=
  match kind with
  | .noFault => False
  | .stackOverflow => s.sp.val = 16 ∧ ∃ op nnn, s.fetch = some op ∧ decodeWord op = some (.call nnn)
  | .stackUnderflow => s.sp.val = 0 ∧ ∃ op, s.fetch = some op ∧ decodeWord op = some .ret
  | .unknownOpcode => ∃ op, s.fetch = some op ∧ decodeWord op = none
  | .addressOutOfRange => s.fetch = none

/-! ### A fault has its cause -/

/-- The fetched instruction faults only for the cause of its fault's kind: of all instructions only RET and CALL have a fault to take
(60_exceptions.md R98). -/
theorem exec_faulted_cause {op : Word} {i : Instr} {s t : State} (hrun : s.status = .running) (hf : s.fetch = some op)
    (hd : decodeWord op = some i) (h : exec i s = .next t) (ht : t.status = .faulted) : FaultCause s t.fault.kind := by
  cases i with
  | halt | cls | jp | seImm | sneImm | seReg | ldImm | addImm | addReg | sub | subn | shl => cases h; simp [hrun] at ht
  | ret =>
    rcases exec_ret_cases s with ⟨hempty, e⟩ | ⟨_, -, e, -, -, -, -, hstatus, -⟩ <;> cases e.symm.trans h
    · exact ⟨hempty, op, hf, hd⟩
    · simp [hstatus, hrun] at ht
  | call nnn =>
    rcases exec_call_cases nnn s with ⟨hfull, e⟩ | ⟨_, -, e, -, -, -, -, hstatus, -⟩ <;> cases e.symm.trans h
    · exact ⟨hfull, op, nnn, hf, hd⟩
    · simp [hstatus, hrun] at ht

/-- A step that ends Faulted had the cause of the fault it recorded. -/
theorem step_faulted_cause {s t : State} (hrun : s.status = .running) (h : step s = .next t) (ht : t.status = .faulted) :
    FaultCause s t.fault.kind := by
  rcases step_cases s with ⟨hne, -⟩ | ⟨-, -, hf, e⟩ | ⟨op, -, -, hf, hd, e⟩ | ⟨op, i, -, -, hf, hd, e⟩
  · exact absurd hrun hne
  · cases e.symm.trans h; exact hf
  · cases e.symm.trans h; exact ⟨op, hf, hd⟩
  · exact exec_faulted_cause hrun hf hd (e.symm.trans h) ht

/-! ### A cause has its fault -/

/-- From a state that has the cause of a fault, a step enters that fault. -/
theorem step_raises_of_faultCause {s : State} {kind : FaultKind} (hrun : s.status = .running) (hcause : FaultCause s kind) :
    ∃ op, step s = .next (s.raiseFault kind op) := by
  cases kind with
  | noFault => exact hcause.elim
  | addressOutOfRange => exact ⟨_, step_of_fetch_none hrun hcause⟩
  | unknownOpcode =>
    obtain ⟨op, hf, hd⟩ := hcause
    exact ⟨_, step_of_unknown hrun hf hd⟩
  | stackUnderflow =>
    obtain ⟨hempty, op, hf, hd⟩ := hcause
    rcases exec_ret_cases s with ⟨-, e⟩ | ⟨_, hpos, -⟩
    · exact ⟨_, (step_of_decode hrun hf hd).trans e⟩
    · exact absurd hempty hpos.ne'
  | stackOverflow =>
    obtain ⟨hfull, op, nnn, hf, hd⟩ := hcause
    rcases exec_call_cases nnn s with ⟨-, e⟩ | ⟨_, hroom, -⟩
    · exact ⟨_, (step_of_decode hrun hf hd).trans e⟩
    · exact absurd hfull hroom.ne

/-- A step in Running ends in a fault of a kind exactly when the state had that kind's cause. -/
theorem step_faults_iff_faultCause {s t : State} (hrun : s.status = .running) (h : step s = .next t) (kind : FaultKind) :
    t.status = .faulted ∧ t.fault.kind = kind ↔ FaultCause s kind := by
  constructor
  · rintro ⟨ht, rfl⟩
    exact step_faulted_cause hrun h ht
  · intro hcause
    obtain ⟨op, e⟩ := step_raises_of_faultCause hrun hcause
    cases e.symm.trans h
    exact ⟨rfl, rfl⟩

/-! ### The stack faults and the unknown opcode -/

/-- Settles O36: the causes of the two stack faults are the CALL at a full stack and the RET at an empty one. -/
theorem stackFaultsComeOnlyFromCallAndRet : Obligations.StackFaultsComeOnlyFromCallAndRet := fun _ _ hrun h =>
  ⟨step_faults_iff_faultCause hrun h .stackOverflow, step_faults_iff_faultCause hrun h .stackUnderflow⟩

/-- Settles O10: an unknown opcode has no instruction, so the step is fault entry with that opcode. -/
theorem unknownOpcodeFaults : Obligations.UnknownOpcodeFaults := by
  intro s op hrun hf hunknown
  have hd : decodeWord op = none := (decodeWord_eq_none_iff op).2 hunknown
  exact ⟨_, step_of_unknown hrun hf hd, s.raiseFault_faults .unknownOpcode (some op)⟩

end Sys2Proof.Machine
end

section
/-! SUPPORT. The decoder and the encoder are each other's inverse on the defined opcodes (30_encoding.md R52), and the rest is the
unknown space (30_encoding.md R53). -/

namespace Sys2Proof

/-! ### Decoding an encoded instruction -/

theorem decodeWord_encode (i : Instr) : decodeWord (encode i) = some i := by
  cases i with
  | halt => exact Laws.RoundTrip.halt
  | cls => exact Laws.RoundTrip.cls
  | ret => exact Laws.RoundTrip.ret
  | jp nnn => exact Laws.RoundTrip.jp nnn
  | call nnn => exact Laws.RoundTrip.call nnn
  | seImm x kk => exact Laws.RoundTrip.seImm x kk
  | sneImm x kk => exact Laws.RoundTrip.sneImm x kk
  | seReg x y => exact Laws.RoundTrip.seReg x y
  | ldImm x kk => exact Laws.RoundTrip.ldImm x kk
  | addImm x kk => exact Laws.RoundTrip.addImm x kk
  | addReg x y => exact Laws.RoundTrip.addReg x y
  | sub x y => exact Laws.RoundTrip.sub x y
  | subn x y => exact Laws.RoundTrip.subn x y
  | shl x y => exact Laws.RoundTrip.shl x y

/-- Settles O1, one round trip for each row of the opcode table. -/
theorem encodeThenDecodeGivesTheInstruction : Obligations.EncodeThenDecodeGivesTheInstruction := decodeWord_encode

/-! ### Encoding a decoded opcode -/

/-- An opcode of class `c` is `c` followed by its address field. -/
theorem append_nnn_of_class {op : Word} {c : BitVec 4} (h : classField op = c) : c ++ nnnField op = op :=
  h ▸ class_append_nnn op

/-- An opcode of class `c` is `c` followed by its `x` and `kk` fields. -/
theorem append_x_kk_of_class {op : Word} {c : BitVec 4} (h : classField op = c) : c ++ xField op ++ kkField op = op :=
  h ▸ class_append_x_kk op

/-- An opcode of class `c` that ends with `d` is its `x` and `y` fields between the two. -/
theorem append_x_y_of_class_d {op : Word} {c d : BitVec 4} (h : classField op = c ∧ dField op = d) :
    c ++ xField op ++ yField op ++ d = op :=
  h.1 ▸ h.2 ▸ class_append_x_y_d op

/-- Every bit of a defined opcode is in its class, in `d` where the tag fixes it, or in an operand. -/
theorem encode_of_decodeWord {op : Word} {i : Instr} (h : decodeWord op = some i) : encode i = op := by
  have hclass {t : OpTag} (ht : opTag op = t) (h0 : t ≠ .halt) (h1 : t ≠ .cls) (h2 : t ≠ .ret) (h3 : t ≠ .unknown) :
      classTag (classField op) (dField op) = t := (opTag_eq_iff_classTag op h0 h1 h2 h3).1 ht
  cases ht : opTag op <;> rw [decodeWord_of_tag ht] at h <;> cases h
  case halt => exact ((opTag_eq_halt op).1 ht).symm
  case cls => exact ((opTag_eq_cls op).1 ht).symm
  case ret => exact ((opTag_eq_ret op).1 ht).symm
  all_goals have htag := hclass ht (by decide) (by decide) (by decide) (by decide)
  case jp => exact append_nnn_of_class ((classTag_eq_jp _ _).1 htag)
  case call => exact append_nnn_of_class ((classTag_eq_call _ _).1 htag)
  case seImm => exact append_x_kk_of_class ((classTag_eq_seImm _ _).1 htag)
  case sneImm => exact append_x_kk_of_class ((classTag_eq_sneImm _ _).1 htag)
  case ldImm => exact append_x_kk_of_class ((classTag_eq_ldImm _ _).1 htag)
  case addImm => exact append_x_kk_of_class ((classTag_eq_addImm _ _).1 htag)
  case seReg => exact append_x_y_of_class_d ((classTag_eq_seReg _ _).1 htag)
  case addReg => exact append_x_y_of_class_d ((classTag_eq_addReg _ _).1 htag)
  case sub => exact append_x_y_of_class_d ((classTag_eq_sub _ _).1 htag)
  case subn => exact append_x_y_of_class_d ((classTag_eq_subn _ _).1 htag)
  case shl => exact append_x_y_of_class_d ((classTag_eq_shl _ _).1 htag)

/-- Settles O2: the tag fixes the class (and `d`), and the fields beside them make up the opcode. -/
theorem decodeThenEncodeGivesTheOpcode : Obligations.DecodeThenEncodeGivesTheOpcode := fun _ _ => encode_of_decodeWord

/-- An instruction has exactly one opcode. -/
theorem decodeWord_eq_some_iff {op : Word} {i : Instr} : decodeWord op = some i ↔ op = encode i :=
  ⟨fun h => (encode_of_decodeWord h).symm, fun h => h ▸ decodeWord_encode i⟩

/-! ### The unknown space -/

/-- The pairs of class and `d` that no pattern selects. -/
theorem classTag_eq_unknown (c d : BitVec 4) :
    classTag c d = .unknown ↔
      c.toNat = 0 ∨ (c.toNat = 5 ∧ d.toNat ≠ 0) ∨
      (c.toNat = 8 ∧ d.toNat ≠ 0x4 ∧ d.toNat ≠ 0x5 ∧ d.toNat ≠ 0x7 ∧ d.toNat ≠ 0xE) ∨ 9 ≤ c.toNat := by
  revert c d
  decide

/-- An opcode is unknown when it is none of the three exact values and no class pattern selects it. -/
theorem opTag_eq_unknown (op : Word) :
    opTag op = .unknown ↔
      op ≠ 0x0000#16 ∧ op ≠ 0x00E0#16 ∧ op ≠ 0x00EE#16 ∧ classTag (classField op) (dField op) = .unknown := by
  unfold opTag
  split_ifs <;> simp [*]

theorem toNat_dField (op : Word) : (dField op).toNat = op.toNat % 2 ^ 4 := toNat_extractLsb'_zero_eq_mod op 4

/-- Settles O4: the three exact values are of class 0, and class and `d` are the quotient by 0x1000 and the remainder by 0x10. -/
theorem unknownSpaceIsExact : Obligations.UnknownSpaceIsExact := by
  refine fun op => ⟨(opTag_eq_unknown op).trans ?_, (decodeWord_eq_none_iff op).symm⟩
  have hlt := op.isLt
  simp only [classTag_eq_unknown, toNat_classField, toNat_dField, ← BitVec.toNat_ne_iff_ne, BitVec.toNat_ofNat]
  omega

/-- Settles O6: each sample is the opcode its instruction encodes to; `5121` is of class 5 with `d` not 0, and `FFFF` of class F. -/
theorem sampleOpcodesDecode : Obligations.SampleOpcodesDecode :=
  ⟨decodeWord_encode .ret, decodeWord_encode .cls, decodeWord_encode (.call 0xFFF#12),
    decodeWord_encode (.seImm 0xA#4 0xBC#8), decodeWord_encode (.ldImm 0x0#4 0x1E#8),
    decodeWord_encode (.subn 0x1#4 0x2#4), by decide, by decide⟩

end Sys2Proof
end

section
/-! SUPPORT. Fetch and what a step adds around `exec` (40_fetch_execute_cycle.md R59 to R61, R70). -/

namespace Sys2Proof.Machine

/-! ### Fetch -/

/-- The byte at the lower address is the high byte (20_memory.md R35). -/
theorem toNat_opcodeOf (hi lo : Byte) : (opcodeOf hi lo).toNat = 256 * hi.toNat + lo.toNat := by
  rw [opcodeOf, BitVec.toNat_append, ← Nat.shiftLeft_add_eq_or_of_lt lo.isLt, Nat.shiftLeft_eq, Nat.mul_comm]

/-- Settles O7: the fetch in range gives the two bytes joined, and the fetch above gives nothing. -/
theorem fetchReadsTwoBytesHighFirst : Obligations.FetchReadsTwoBytesHighFirst := fun s =>
  ⟨fun hpc => ⟨_, s.fetch_inRange hpc, toNat_opcodeOf _ _⟩, s.fetch_outOfRange⟩

/-- A fetch that gives an opcode was in range. -/
theorem State.pc_le_of_fetch {s : State} {op : Word} (hf : s.fetch = some op) : s.pc.toNat ≤ 0xFFE := by
  by_contra hpc
  rw [s.fetch_outOfRange (by omega)] at hf
  cases hf

/-- A fetch depends on pc and memory only. -/
theorem State.fetch_congr {s t : State} (hpc : t.pc = s.pc) (hmem : t.mem = s.mem) : t.fetch = s.fetch := by
  simp only [State.fetch, hpc, hmem]

/-! ### Step -/

/-- Settles O8: the fetch is in range and its opcode decodes, so the step is `exec`. -/
theorem stepRunsTheDecodedInstruction : Obligations.StepRunsTheDecodedInstruction := fun s _ hrun hpc hd =>
  step_of_decode hrun (s.fetch_inRange hpc) hd

/-- Settles O9: the fetch gives nothing, so the step is fault entry. -/
theorem fetchOutOfRangeFaults : Obligations.FetchOutOfRangeFaults := fun _ => step_faults_of_pc_outOfRange

theorem step_of_not_running {s : State} (h : s.status ≠ .running) : step s = .next s := by
  rcases step_cases s with ⟨-, e⟩ | ⟨hrun, -⟩ | ⟨_, hrun, -⟩ | ⟨_, _, hrun, -⟩
  · exact e
  all_goals exact absurd hrun h

/-- Settles O11: of the cases of a step only one is outside Running. -/
theorem stepOutsideRunningHasNoEffect : Obligations.StepOutsideRunningHasNoEffect := fun _ => step_of_not_running

end Sys2Proof.Machine
end

section
/-! SUPPORT. What an instruction does to everything but the registers and pc, said once: the two stack faults, and what an instruction
that takes none of them leaves. -/

namespace Sys2Proof.Machine

/-! ### The two outcomes of an instruction -/

/-- The fault of this kind that instruction `i` takes from `s` (60_exceptions.md R94, R95). -/
def TakesStackFault (i : Instr) (s : State) (kind : FaultKind) : Prop :=
  (i = .ret ∧ s.sp.val = 0 ∧ kind = .stackUnderflow) ∨ (∃ nnn, i = .call nnn ∧ s.sp.val = 16 ∧ kind = .stackOverflow)

/-- What instruction `i`, when it takes no fault, does to the call stack (10_state.md R21 to R24). -/
def MovesStack (i : Instr) (s t : State) : Prop :=
  match i with
  | .call _ => s.sp.val < 16 ∧ t.sp.val = s.sp.val + 1 ∧
      ∀ j : Fin 16, t.stack.get j = if j.val = s.sp.val then s.pc + 2#16 else s.stack.get j
  | .ret => ∃ k : Fin 16, s.sp.val = k.val + 1 ∧ t.sp.val = k.val ∧ t.pc = s.stack.get k ∧ t.stack = s.stack
  | _ => t.sp = s.sp ∧ t.stack = s.stack

/-- `t` is what instruction `i` leaves of `s` when it takes no fault, the registers and most of pc apart. -/
structure Completes (i : Instr) (s t : State) : Prop where
  mem : t.mem = s.mem
  fault : t.fault = s.fault
  status : t.status = if i = .halt then .halted else s.status
  displayClears : t.displayClears = if i = .cls then s.displayClears + 1 else s.displayClears
  stack : MovesStack i s t

/-- Everything an instruction can do outside the registers: RET and CALL may take their fault, and every instruction that takes none
completes. -/
theorem exec_cases (i : Instr) (s : State) :
    (∃ kind, TakesStackFault i s kind ∧ exec i s = .next (s.raiseFault kind (some (encode i)))) ∨
    (∃ t, exec i s = .next t ∧ Completes i s t) := by
  cases i with
  | halt | cls | jp | ldImm | addImm | addReg | sub | subn | shl => exact .inr ⟨_, rfl, rfl, rfl, rfl, rfl, rfl, rfl⟩
  | seImm | sneImm | seReg =>
    exact .inr ⟨_, rfl, State.skipIf_mem _ _, State.skipIf_fault _ _, State.skipIf_status _ _, State.skipIf_displayClears _ _,
      State.skipIf_sp _ _, State.skipIf_stack _ _⟩
  | ret =>
    rcases exec_ret_cases s with ⟨hempty, e⟩ | ⟨t, hpos, e, hpc, hsp, hstack, -, hstatus, hfault, hmem, hclears⟩
    · exact .inl ⟨_, .inl ⟨rfl, hempty, rfl⟩, e⟩
    · exact .inr ⟨t, e, hmem, hfault, hstatus, hclears, ⟨s.sp.val - 1, by omega⟩, (Nat.sub_add_cancel hpos).symm, hsp, hpc,
        hstack⟩
  | call nnn =>
    rcases exec_call_cases nnn s with ⟨hfull, e⟩ | ⟨t, hroom, e, -, hsp, hstack, -, hstatus, hfault, hmem, hclears⟩
    · exact .inl ⟨_, .inr ⟨nnn, rfl, hfull, rfl⟩, e⟩
    · exact .inr ⟨t, e, hmem, hfault, hstatus, hclears, hroom, hsp, hstack⟩

/-- The two outcomes of an instruction, for the state it leaves. -/
theorem exec_next_cases {i : Instr} {s t : State} (h : exec i s = .next t) :
    (∃ kind, TakesStackFault i s kind ∧ t = s.raiseFault kind (some (encode i))) ∨ Completes i s t := by
  rcases exec_cases i s with ⟨kind, hfault, e⟩ | ⟨u, e, hu⟩ <;> cases e.symm.trans h
  · exact .inl ⟨kind, hfault, rfl⟩
  · exact .inr hu

/-- An instruction that takes no fault does not end Faulted. -/
theorem Completes.status_ne_faulted {i : Instr} {s t : State} (hc : Completes i s t) (hrun : s.status = .running) :
    t.status ≠ .faulted := by
  rw [hc.status, hrun]
  split <;> decide

/-! ### The outcomes of a step -/

/-- The stack fault that the fetched instruction takes has its cause in the state. -/
theorem TakesStackFault.cause {op : Word} {i : Instr} {s : State} {kind : FaultKind} (h : TakesStackFault i s kind)
    (hf : s.fetch = some op) (hd : decodeWord op = some i) : FaultCause s kind := by
  rcases h with ⟨rfl, hempty, rfl⟩ | ⟨nnn, rfl, hfull, rfl⟩
  · exact ⟨hempty, op, hf, hd⟩
  · exact ⟨hfull, op, nnn, hf, hd⟩

/-- Everything a step can do: nothing outside Running; fault entry for a cause, with what was fetched in the record; or the fetched
instruction. -/
theorem step_next_cases {s t : State} (h : step s = .next t) :
    (s.status ≠ .running ∧ t = s) ∨
    (s.status = .running ∧ ∃ kind, FaultCause s kind ∧ t = s.raiseFault kind s.fetch) ∨
    (s.status = .running ∧ ∃ op i, s.fetch = some op ∧ decodeWord op = some i ∧ exec i s = .next t ∧ Completes i s t) := by
  rcases step_cases s with ⟨hne, e⟩ | ⟨hrun, -, hf, e⟩ | ⟨op, hrun, -, hf, hd, e⟩ | ⟨op, i, hrun, -, hf, hd, e⟩
  · cases e.symm.trans h
    exact .inl ⟨hne, rfl⟩
  · cases e.symm.trans h
    exact .inr (.inl ⟨hrun, .addressOutOfRange, hf, by rw [hf]⟩)
  · cases e.symm.trans h
    exact .inr (.inl ⟨hrun, .unknownOpcode, ⟨op, hf, hd⟩, by rw [hf]⟩)
  · rw [e] at h
    rcases exec_next_cases h with ⟨kind, hfault, rfl⟩ | hc
    · exact .inr (.inl ⟨hrun, kind, hfault.cause hf hd, by rw [hf, encode_of_decodeWord hd]⟩)
    · exact .inr (.inr ⟨hrun, op, i, hf, hd, h, hc⟩)

/-! ### Progress -/

theorem exec_total (i : Instr) (s : State) : ∃ t, exec i s = .next t := by
  rcases exec_cases i s with ⟨_, -, e⟩ | ⟨_, e, -⟩ <;> exact ⟨_, e⟩

theorem step_total (s : State) : ∃ t, step s = .next t := by
  rcases step_cases s with ⟨-, e⟩ | ⟨-, -, -, e⟩ | ⟨_, -, -, -, -, e⟩ | ⟨_, i, -, -, -, -, e⟩
  case inr.inr.inr => exact e ▸ exec_total i s
  all_goals exact ⟨_, e⟩

/-- Settles O12: a step is the same state, fault entry, or an instruction, and every instruction has a next state. -/
theorem everyStepHasANextState : Obligations.EveryStepHasANextState := step_total

/-! ### HALT and CLS -/

/-- Settles O13: HALT is the fetch advance and the status, and no step leaves Halted. -/
theorem haltEndsTheRun : Obligations.HaltEndsTheRun := by
  refine ⟨decodeWord_encode .halt, rfl, fun s => ⟨s.advance.setStatus .halted, rfl, rfl, rfl, rfl, rfl, ?_⟩⟩
  exact ⟨.of_regs_eq rfl, ⟨rfl, fun _ => rfl⟩, .of_mem_eq rfl, step_of_not_running (by simp)⟩

/-- Settles O14: CLS is the fetch advance and one more event. -/
theorem clsEmitsOneDisplayClear : Obligations.ClsEmitsOneDisplayClear :=
  ⟨decodeWord_encode .cls, fun s =>
    ⟨s.advance.emitDisplayClear, rfl, rfl, rfl, rfl, rfl, .of_regs_eq rfl, ⟨rfl, fun _ => rfl⟩, .of_mem_eq rfl⟩⟩

/-! ### Memory -/

/-- No instruction writes memory (20_memory.md R45). -/
theorem exec_mem {i : Instr} {s t : State} (h : exec i s = .next t) : t.mem = s.mem := by
  rcases exec_next_cases h with ⟨_, -, rfl⟩ | hc
  · rfl
  · exact hc.mem

theorem step_mem {s t : State} (h : step s = .next t) : t.mem = s.mem := by
  rcases step_next_cases h with ⟨-, rfl⟩ | ⟨-, _, -, rfl⟩ | ⟨-, _, _, -, -, -, hc⟩
  · rfl
  · rfl
  · exact hc.mem

end Sys2Proof.Machine
end

section
/-! SUPPORT. The host's commands (60_exceptions.md R105, 20_memory.md R46) and reset (10_state.md R31): one equation for each command
that is taken and one for each that is refused; and memory, which of all these only Reset and Load in Idle change. -/

namespace Sys2Proof.Machine

/-! ### Taken and refused -/

theorem State.after_of_done {s t : State} {c : Command} (h : s.command c = .done t) : s.after c = t := by
  simp only [State.after, h]

theorem State.after_of_refused {s : State} {c : Command} (h : s.command c = .refused) : s.after c = s := by
  simp only [State.after, h]

theorem State.command_load_of_idle {s : State} {base : Nat} {bytes : List Byte} (hidle : s.status = .idle)
    (hfit : base + bytes.length ≤ 4096) :
    s.command (.load base bytes) = .done { s with mem := s.mem.writeBytes base bytes } :=
  if_pos ⟨hidle, decide_eq_true hfit⟩

theorem State.command_load_refused {s : State} {base : Nat} {bytes : List Byte}
    (h : s.status ≠ .idle ∨ 4096 < base + bytes.length) : s.command (.load base bytes) = .refused :=
  if_neg fun ⟨hidle, hfit⟩ => h.elim (absurd hidle) (Nat.not_lt.2 (of_decide_eq_true hfit))

theorem State.command_start_of_idle {s : State} (h : s.status = .idle) : s.command .start = .done (s.setStatus .running) :=
  if_pos h

theorem State.command_start_refused {s : State} (h : s.status ≠ .idle) : s.command .start = .refused := if_neg h

theorem State.command_skip_of_faulted {s : State} (h : s.status = .faulted) : s.command .skipAndContinue = .done s.skipFault :=
  if_pos h

theorem State.command_skip_refused {s : State} (h : s.status ≠ .faulted) : s.command .skipAndContinue = .refused := if_neg h

/-- Everything a command can do: nothing, or its effect on a state that meets its guard (60_exceptions.md R105). -/
theorem State.after_cases (s : State) (c : Command) :
    s.after c = s ∨
    (c = .reset ∧ s.after c = State.reset) ∨
    (∃ base bytes, c = .load base bytes ∧ s.status = .idle ∧ base + bytes.length ≤ 4096 ∧
      s.after c = { s with mem := s.mem.writeBytes base bytes }) ∨
    (c = .start ∧ s.status = .idle ∧ s.after c = s.setStatus .running) ∨
    (c = .step ∧ Sys2Proof.Machine.step s = .next (s.after c)) ∨
    (c = .skipAndContinue ∧ s.status = .faulted ∧ s.after c = s.skipFault) := by
  cases c with
  | reset => exact .inr (.inl ⟨rfl, rfl⟩)
  | load base bytes =>
    by_cases h : s.status = .idle ∧ base + bytes.length ≤ 4096
    · obtain ⟨hidle, hfit⟩ := h
      exact .inr (.inr (.inl ⟨_, _, rfl, hidle, hfit, State.after_of_done (State.command_load_of_idle hidle hfit)⟩))
    · exact .inl (State.after_of_refused (State.command_load_refused (by rwa [← Nat.not_le, ← not_and_or])))
  | start =>
    by_cases h : s.status = .idle
    · exact .inr (.inr (.inr (.inl ⟨rfl, h, State.after_of_done (State.command_start_of_idle h)⟩)))
    · exact .inl (State.after_of_refused (State.command_start_refused h))
  | step =>
    obtain ⟨t, h⟩ := step_total s
    exact .inr (.inr (.inr (.inr (.inl ⟨rfl, h.trans (congrArg _ (State.after_step h).symm)⟩))))
  | skipAndContinue =>
    by_cases h : s.status = .faulted
    · exact .inr (.inr (.inr (.inr (.inr ⟨rfl, h, State.after_of_done (State.command_skip_of_faulted h)⟩))))
    · exact .inl (State.after_of_refused (State.command_skip_refused h))

/-- Settles O49: the guard of Load fails. -/
theorem loadIsRefusedOutsideIdleOrMemory : Obligations.LoadIsRefusedOutsideIdleOrMemory := fun _ _ _ h =>
  ⟨State.command_load_refused h, State.after_of_refused (State.command_load_refused h)⟩

/-- Settles O50: Start has its two cases, and Reset gives the reset state. -/
theorem startRunsFromIdleOnly : Obligations.StartRunsFromIdleOnly := fun _ =>
  ⟨State.command_start_of_idle, State.command_start_refused, State.reset, rfl, rfl, rfl, rfl, rfl, rfl, rfl, rfl⟩

/-- Settles O51: SkipAndContinue is the way out of a fault, whose pc is a 16-bit sum. -/
theorem skipAndContinueLeavesTheFault : Obligations.SkipAndContinueLeavesTheFault := fun s =>
  ⟨fun h => ⟨s.skipFault, State.command_skip_of_faulted h, BitVec.toNat_add _ _, rfl, rfl, rfl, .of_regs_eq rfl,
    ⟨rfl, fun _ => rfl⟩, .of_mem_eq rfl⟩, State.command_skip_refused⟩

/-! ### Reset and Inspect -/

/-- Settles O41: memory lists nothing, the registers and the stack repeat the zero, and the rest stands in the reset state. -/
theorem resetZeroesTheCore : Obligations.ResetZeroesTheCore := by
  refine ⟨fun _ => rfl, fun r => ?_, fun k => ?_, rfl, rfl, rfl, rfl⟩
  · exact Vector.getElem_replicate r.isLt
  · exact Vector.getElem_replicate k.isLt

/-- SP fits in the 5 bits it is read as (10_state.md R21). -/
theorem State.toNat_inspect_sp (s : State) : (s.inspect .sp).toNat = s.sp.val :=
  (BitVec.toNat_ofNat _ _).trans (Nat.mod_eq_of_lt (lt_trans s.sp.isLt (by decide)))

theorem State.inspect_stackEntry (s : State) (k : Fin 16) : s.inspect (.stackEntry (BitVec.ofNat 4 k.val)) = s.stack.get k := by
  have hk : (BitVec.ofNat 4 k.val).toNat = k.val := (BitVec.toNat_ofNat _ _).trans (Nat.mod_eq_of_lt k.isLt)
  simp only [State.inspect, hk]
  rfl

theorem ofBool_eq_one_iff (b : Bool) : BitVec.ofBool b = 1#1 ↔ b = true := by
  cases b <;> decide

/-- Settles O53: registers, pc, memory and the record are read as they stand, SP and the stack entries by their number, and the
codes by the cases of status and kind. -/
theorem inspectReturnsEveryElement : Obligations.InspectReturnsEveryElement := by
  refine fun s => ⟨fun _ => rfl, rfl, s.toNat_inspect_sp, s.inspect_stackEntry, fun _ => rfl, ?_, ?_, rfl, rfl, ofBool_eq_one_iff _⟩
  · simp only [State.inspect]
    cases s.status <;> rfl
  · simp only [State.inspect]
    cases s.fault.kind <;> rfl

/-! ### Memory -/

/-- Start, Step and SkipAndContinue write no memory. -/
theorem State.after_mem (s : State) {c : Command} (hreset : c ≠ .reset) (hload : ∀ base bytes, c ≠ .load base bytes) :
    (s.after c).mem = s.mem := by
  rcases s.after_cases c with e | ⟨rfl, -⟩ | ⟨base, bytes, rfl, -⟩ | ⟨-, -, e⟩ | ⟨-, h⟩ | ⟨-, -, e⟩
  · rw [e]
  · exact absurd rfl hreset
  · exact absurd rfl (hload base bytes)
  · rw [e, State.setStatus_mem]
  · exact step_mem h
  · rw [e, State.skipFault_mem]

/-- Settles O39: memory is the same list after every instruction and after each of these commands. -/
theorem memoryChangesOnlyByResetAndLoadInIdle : Obligations.MemoryChangesOnlyByResetAndLoadInIdle :=
  ⟨fun _ _ _ h => .of_mem_eq (exec_mem h), fun s _ hreset hload => .of_mem_eq (s.after_mem hreset hload),
    fun _ _ _ hbusy => .of_mem_eq (congrArg State.mem (State.after_of_refused (State.command_load_refused (.inl hbusy))))⟩

end Sys2Proof.Machine
end

section
/-! SUPPORT. Memory as the host sees it: the canonical form (log 23) makes equal reads equal memories, and a load is read back byte for
byte (20_memory.md R46). -/

namespace Sys2Proof.Machine

/-! ### The canonical form -/

/-- A memory reads its first cell. -/
theorem Memory.read_cons_self (k : Nat) (v : Byte) (rest : Memory) : Memory.read ((k, v) :: rest) k = v := if_pos rfl

/-- A memory reads past its first cell. -/
theorem Memory.read_cons_of_ne {k a : Nat} (v : Byte) (rest : Memory) (h : k ≠ a) : Memory.read ((k, v) :: rest) a = rest.read a :=
  if_neg h

/-- Of two canonical memories that read the same, the second does not start above the first. -/
theorem Memory.first_le_of_read_eq {lo k k' : Nat} {v v' : Byte} {rest rest' : Memory}
    (h : Memory.wfFrom lo ((k, v) :: rest) = true) (h' : Memory.wfFrom lo ((k', v') :: rest') = true)
    (hread : ∀ a, Memory.read ((k, v) :: rest) a = Memory.read ((k', v') :: rest') a) : k' ≤ k := by
  obtain ⟨-, -, hv, -⟩ := Memory.wfFrom_cons.1 h
  obtain ⟨-, hk', hv', hrest'⟩ := Memory.wfFrom_cons.1 h'
  by_contra hlt
  have hbelow : Memory.read ((k', v') :: rest') k = Config.resetByte :=
    Memory.read_below (Memory.wfFrom_cons.2 ⟨Nat.lt_of_not_le hlt, hk', hv', hrest'⟩) (Nat.lt_succ_self k)
  exact hv (by rw [← Memory.read_cons_self k v rest, hread, hbelow])

/-- Canonical memories that read the same start with the same cell, and read the same behind it. -/
theorem Memory.eq_of_read_eq {lo : Nat} {m m' : Memory} (h : Memory.wfFrom lo m = true) (h' : Memory.wfFrom lo m' = true)
    (hread : ∀ a, m.read a = m'.read a) : m = m' := by
  induction m generalizing lo m' with
  | nil =>
    cases m' with
    | nil => rfl
    | cons c rest' =>
      obtain ⟨-, -, hv, -⟩ := Memory.wfFrom_cons.1 h'
      exact absurd ((Memory.read_cons_self c.1 c.2 rest').symm.trans (hread c.1).symm) hv
  | cons c rest ih =>
    cases m' with
    | nil =>
      obtain ⟨-, -, hv, -⟩ := Memory.wfFrom_cons.1 h
      exact absurd ((Memory.read_cons_self c.1 c.2 rest).symm.trans (hread c.1)) hv
    | cons c' rest' =>
      obtain ⟨k, v⟩ := c
      obtain ⟨k', v'⟩ := c'
      obtain rfl : k = k' := le_antisymm (Memory.first_le_of_read_eq h' h fun a => (hread a).symm)
        (Memory.first_le_of_read_eq h h' hread)
      obtain rfl : v = v' := by simpa only [Memory.read_cons_self] using hread k
      obtain ⟨-, -, -, hrest⟩ := Memory.wfFrom_cons.1 h
      obtain ⟨-, -, -, hrest'⟩ := Memory.wfFrom_cons.1 h'
      have hbehind (a : Nat) : Memory.read rest a = Memory.read rest' a := by
        by_cases ha : k = a
        · rw [Memory.read_below hrest (by omega), Memory.read_below hrest' (by omega)]
        · simpa only [Memory.read_cons_of_ne _ _ ha] using hread a
      rw [ih hrest hrest' hbehind]

/-- Settles O47, by induction on both lists of cells. -/
theorem canonicalMemoriesWithEqualReadsAreEqual : Obligations.CanonicalMemoriesWithEqualReadsAreEqual := fun _ _ =>
  Memory.eq_of_read_eq

/-! ### Load -/

/-- An address above an image is not written by it. -/
theorem Memory.read_writeBytes_above {m : Memory} (h : m.wf = true) (base : Nat) (bytes : List Byte)
    (hfit : base + bytes.length ≤ Config.memBytes) (a : Nat) (ha : base + bytes.length ≤ a) :
    (m.writeBytes base bytes).read a = m.read a := by
  induction bytes generalizing m base with
  | nil => rfl
  | cons b rest ih =>
    rw [List.length_cons] at hfit ha
    rw [Memory.writeBytes, ih (Memory.wf_write h (by omega) b) (base + 1) (by omega) (by omega), Memory.read_write_wf h,
      if_neg (by omega)]

/-- Each byte of an image is read back: a later byte of it is written above. -/
theorem Memory.read_writeBytes_inside {m : Memory} (h : m.wf = true) (base : Nat) (bytes : List Byte)
    (hfit : base + bytes.length ≤ Config.memBytes) (k : Nat) (hk : k < bytes.length) :
    (m.writeBytes base bytes).read (base + k) = bytes[k] := by
  induction bytes generalizing m base k with
  | nil => cases hk
  | cons b rest ih =>
    rw [List.length_cons] at hfit hk
    have hwf := Memory.wf_write h (show base < Config.memBytes by omega) b
    cases k with
    | zero =>
      rw [Memory.writeBytes, Memory.read_writeBytes_below hwf (base + 1) rest (by omega) _ (by omega), Memory.read_write_wf h]
      exact if_pos rfl
    | succ k =>
      have hnext : base + (k + 1) = base + 1 + k := by omega
      rw [Memory.writeBytes, hnext]
      exact ih hwf (base + 1) (by omega) k (by omega)

/-- Settles O48: Load writes the image in Idle, and the image is read back inside, and nothing of it below or above. -/
theorem loadWritesExactlyTheImage : Obligations.LoadWritesExactlyTheImage := by
  intro s base bytes hwf hidle hfit
  have hout (a : Nat) (ha : a < base ∨ base + bytes.length ≤ a) : (s.mem.writeBytes base bytes).read a = s.mem.read a :=
    ha.elim (Memory.read_writeBytes_below hwf base bytes hfit a) (Memory.read_writeBytes_above hwf base bytes hfit a)
  exact ⟨_, State.command_load_of_idle hidle hfit, Memory.read_writeBytes_inside hwf base bytes hfit, hout, rfl,
    .of_regs_eq rfl, ⟨rfl, fun _ => rfl⟩, rfl, rfl, rfl⟩

end Sys2Proof.Machine
end

section
/-! SUPPORT. The call stack as a last-in first-out list (10_state.md R21 to R24, 42_control_transfer.md R73, R75), and the runs of
an instruction that jumps to itself (70_reset_and_hazards.md R110). -/

namespace Sys2Proof.Machine

/-! ### RET -/

/-- A RET from an empty stack takes the underflow fault (42_control_transfer.md R73). -/
theorem exec_ret_faults_of_empty {s : State} (hempty : s.sp.val = 0) :
    ∃ t, exec .ret s = .next t ∧ Faults s t .stackUnderflow 0x00EE#16 true := by
  rcases exec_ret_cases s with ⟨-, e⟩ | ⟨_, hpos, -⟩
  · exact ⟨_, e, s.raiseFault_faults .stackUnderflow (some _)⟩
  · omega

/-- A RET from a stack with a live entry resumes at the most recent one (42_control_transfer.md R73). -/
theorem exec_ret_pops_of_live {s : State} (k : Fin 16) (hk : s.sp.val = k.val + 1) :
    ∃ t, exec .ret s = .next t ∧ t.sp.val = k.val ∧ t.pc = s.stack.get k ∧ (∀ j : Fin 16, t.stack.get j = s.stack.get j) ∧
      SameRegsBut [] s t ∧ SameMemory s t ∧ SameRunControl s t := by
  rcases exec_ret_cases s with ⟨hempty, -⟩ | ⟨t, hpos, e, hpc, hsp, hstack, hregs, hstatus, hfault, hmem, hclears⟩
  · omega
  · have hlast : (⟨s.sp.val - 1, by omega⟩ : Fin 16) = k := Fin.ext (by simp [hk])
    rw [hlast] at hpc
    exact ⟨t, e, by omega, hpc, fun _ => by rw [hstack], .of_regs_eq hregs, .of_mem_eq hmem, hstatus, hfault, hclears⟩

/-- Settles O15: the two clauses are RET's two cases, an empty stack and one with a live entry. -/
theorem retPopsOrUnderflows : Obligations.RetPopsOrUnderflows :=
  ⟨decodeWord_encode .ret, fun _ => ⟨exec_ret_faults_of_empty, exec_ret_pops_of_live⟩⟩

/-! ### CALL and RET together -/

/-- Settles O18: the CALL pushes the address behind it at the place the RET pops from. -/
theorem retAfterCallResumesAfterTheCall : Obligations.RetAfterCallResumesAfterTheCall := by
  intro nnn s hroom
  obtain ⟨t, hcall, -, htsp, htop, hbelow, htregs, htmem, htstatus, htfault, htclears⟩ :=
    exec_call_pushes_of_room nnn ⟨s.sp.val, hroom⟩ rfl
  obtain ⟨u, hret, husp, hupc, hustack, huregs, humem, hustatus, hufault, huclears⟩ := exec_ret_pops_of_live _ htsp
  refine ⟨t, u, hcall, hret, hupc.trans htop, Fin.ext husp, fun j hj => ?_, fun r hr => (huregs r hr).trans (htregs r hr),
    fun a => (humem a).trans (htmem a), hustatus.trans htstatus, hufault.trans htfault, huclears.trans htclears⟩
  exact (hustack j).trans (hbelow j fun h => hj.ne (congrArg Fin.val h))

/-- Fault entry leaves the stack as it is, so an instruction that moves SP completed. -/
theorem Completes.of_sp_ne {i : Instr} {s t : State} (h : exec i s = .next t) (hsp : t.sp ≠ s.sp) : Completes i s t := by
  rcases exec_next_cases h with ⟨_, -, rfl⟩ | hc
  · exact absurd (s.raiseFault_sp _ _) hsp
  · exact hc

/-- SP rises only by a push and falls only by a pop (10_state.md R21 to R23). -/
theorem MovesStack.sp_cases {i : Instr} {s t : State} (h : MovesStack i s t) :
    t.sp = s.sp ∨ (t.sp.val = s.sp.val + 1 ∧ ∃ nnn, i = .call nnn) ∨ (s.sp.val = t.sp.val + 1 ∧ i = .ret) := by
  cases i with
  | call nnn =>
    obtain ⟨-, hsp, -⟩ := h
    exact .inr (.inl ⟨hsp, nnn, rfl⟩)
  | ret =>
    obtain ⟨k, hs, ht, -, -⟩ := h
    exact .inr (.inr ⟨by omega, rfl⟩)
  | halt | cls | jp | seImm | sneImm | seReg | ldImm | addImm | addReg | sub | subn | shl => exact .inl h.1

/-- An entry live before an instruction is not written by it (10_state.md R22, R24). -/
theorem exec_keeps_live_entry {i : Instr} {s t : State} (h : exec i s = .next t) (j : Fin 16) (hj : j.val < s.sp.val) :
    t.stack.get j = s.stack.get j := by
  rcases exec_next_cases h with ⟨_, -, rfl⟩ | ⟨-, -, -, -, hstack⟩
  · rfl
  · cases i with
    | call nnn =>
      obtain ⟨-, -, hget⟩ := hstack
      exact (hget j).trans (if_neg hj.ne)
    | ret =>
      obtain ⟨_, -, -, -, hsame⟩ := hstack
      rw [hsame]
    | halt | cls | jp | seImm | sneImm | seReg | ldImm | addImm | addReg | sub | subn | shl =>
      obtain ⟨-, hsame⟩ := hstack
      rw [hsame]

/-- Settles O19: CALL and RET write and take the entry SP names, no other instruction moves SP, and no live entry is written. -/
theorem callStackIsLastInFirstOut : Obligations.CallStackIsLastInFirstOut := by
  intro i s t h
  have hsp : t.sp = s.sp ∨ (t.sp.val = s.sp.val + 1 ∧ ∃ nnn, i = .call nnn) ∨ (s.sp.val = t.sp.val + 1 ∧ i = .ret) := by
    by_cases hmoved : t.sp = s.sp
    · exact .inl hmoved
    · exact (Completes.of_sp_ne h hmoved).stack.sp_cases
  refine ⟨?_, ?_, fun hrise => ?_, fun hfall => ?_, fun j hj _ => exec_keeps_live_entry h j hj⟩
  · rintro nnn k rfl hk
    obtain ⟨u, e, -, husp, htop, -⟩ := exec_call_pushes_of_room nnn k hk
    cases e.symm.trans h
    exact ⟨htop, husp⟩
  · rintro k rfl hk
    obtain ⟨u, e, husp, hupc, -⟩ := exec_ret_pops_of_live k hk
    cases e.symm.trans h
    exact ⟨hupc, husp⟩
  · rcases hsp with e | hcall | ⟨hret, -⟩
    · rw [e] at hrise; omega
    · exact hcall
    · omega
  · rcases hsp with e | ⟨hcall, -⟩ | hret
    · rw [e] at hfall; omega
    · omega
    · exact hret

/-! ### An instruction that jumps to itself -/

theorem State.steps_succ {s t : State} (h : step s = .next t) (n : Nat) : s.steps (n + 1) = t.steps n := by
  rw [State.steps, State.after_step h]

/-- A state that a step leaves as it is stays so. -/
theorem State.steps_eq_self {s : State} (h : step s = .next s) (n : Nat) : s.steps n = s := by
  induction n with
  | zero => rfl
  | succ n ih => rw [State.steps_succ h, ih]

/-- Settles O21: the jump to pc sets pc to the value it has, so the step is the same state. -/
theorem selfJumpNeverEnds : Obligations.SelfJumpNeverEnds := by
  intro s op nnn n hrun hf hd htarget
  have hself : step s = .next s := by rw [step_of_decode hrun hf hd, exec_jp, State.setPc_eq_self htarget.symm]
  exact State.steps_eq_self hself n

/-- A Running state whose next instruction is a CALL to itself. -/
structure AtSelfCall (nnn : Addr) (s : State) : Prop where
  running : s.status = .running
  fetch : s.fetch = some (encode (.call nnn))
  target : nnn.setWidth 16 = s.pc

theorem AtSelfCall.step_eq {nnn : Addr} {s : State} (h : AtSelfCall nnn s) : step s = exec (.call nnn) s :=
  step_of_decode h.running h.fetch (decodeWord_encode _)

/-- With room on the stack the CALL to itself pushes, and the next instruction is the same CALL. -/
theorem AtSelfCall.step_of_room {nnn : Addr} {s : State} (h : AtSelfCall nnn s) (hroom : s.sp.val < 16) :
    ∃ t, step s = .next t ∧ AtSelfCall nnn t ∧ t.pc = s.pc ∧ t.sp.val = s.sp.val + 1 ∧
      ∀ j : Fin 16, t.stack.get j = if j.val = s.sp.val then s.pc + 2#16 else s.stack.get j := by
  rcases exec_call_cases nnn s with ⟨hfull, -⟩ | ⟨t, -, e, hpc, hsp, hstack, -, hstatus, -, hmem, -⟩
  · omega
  · have hpc' : t.pc = s.pc := hpc.trans h.target
    exact ⟨t, h.step_eq.trans e, ⟨hstatus.trans h.running, (State.fetch_congr hpc' hmem).trans h.fetch, hpc.symm⟩, hpc', hsp,
      hstack⟩

/-- The state after a run of CALLs to itself from `s`: the stack is full and the last CALL faulted. -/
def SelfCallOverflowed (nnn : Addr) (s t : State) : Prop :=
  t.status = .faulted ∧ t.fault.kind = .stackOverflow ∧ t.fault.addr = s.pc ∧ t.fault.opcode = encode (.call nnn) ∧
    t.sp.val = 16 ∧
    ∀ j : Fin 16, t.stack.get j = if j.val < s.sp.val then s.stack.get j else s.pc + 2#16

/-- With the stack full the CALL to itself faults. -/
theorem AtSelfCall.step_of_full {nnn : Addr} {s : State} (h : AtSelfCall nnn s) (hfull : s.sp.val = 16) :
    ∃ t, step s = .next t ∧ SelfCallOverflowed nnn s t := by
  rcases exec_call_cases nnn s with ⟨-, e⟩ | ⟨_, hroom, -⟩
  · exact ⟨_, h.step_eq.trans e, rfl, rfl, rfl, rfl, hfull, fun j => (if_pos (by omega)).symm⟩
  · omega

/-- From a stack with room for `n` entries the CALL to itself fills it and then faults. -/
theorem AtSelfCall.steps_overflow {nnn : Addr} {n : Nat} {s : State} (h : AtSelfCall nnn s) (hn : s.sp.val + n = 16) :
    SelfCallOverflowed nnn s (s.steps (n + 1)) := by
  induction n generalizing s with
  | zero =>
    obtain ⟨t, e, ht⟩ := h.step_of_full hn
    rwa [State.steps_succ e]
  | succ n ih =>
    obtain ⟨t, e, ht, hpc, hsp, hstack⟩ := h.step_of_room (by omega)
    obtain ⟨hstatus, hkind, haddr, hop, hfull, hget⟩ := ih ht (by omega)
    rw [State.steps_succ e]
    refine ⟨hstatus, hkind, haddr.trans hpc, hop, hfull, fun j => ?_⟩
    rw [hget, hstack, hpc, hsp]
    rcases Nat.lt_trichotomy j.val s.sp.val with hlt | heq | hgt
    · rw [if_pos (by omega), if_neg hlt.ne, if_pos hlt]
    · rw [if_pos (by omega), if_pos heq, if_neg heq.not_lt]
    · rw [if_neg (by omega), if_neg hgt.not_gt]

/-- Settles O20, by induction on the entries still free. -/
theorem selfCallOverflowsWhenTheStackIsFull : Obligations.SelfCallOverflowsWhenTheStackIsFull := by
  intro s op nnn hrun hf hd htarget
  obtain rfl := decodeWord_eq_some_iff.1 hd
  have hsteps : 17 - s.sp.val = 16 - s.sp.val + 1 := by omega
  rw [hsteps]
  exact AtSelfCall.steps_overflow ⟨hrun, hf, htarget⟩ (by omega)

end Sys2Proof.Machine
end

section
/-! SUPPORT. What each outcome of a step changes: VF (10_state.md R14, R20), the fault record (60_exceptions.md R93, R98), the status
(40_fetch_execute_cycle.md R70) and the record of display-clear events (log 1). -/

namespace Sys2Proof.Machine

/-! ### VF -/

/-- A flag is at most 1 (45_alu_register.md R84). -/
theorem toNat_flagByte_le_one (c : Bool) : (flagByte c).toNat ≤ 1 := by
  cases c <;> decide

/-- An instruction that writes a result with its flag leaves a flag in VF. -/
theorem toNat_vf_le_one_of_exec {i : Instr} {s t : State} {x : RegIdx} {r : Byte} {c : Bool} (h : exec i s = .next t)
    (hexec : exec i s = .next (s.advance.writeResultAndFlag x r (flagByte c))) : (t.reg 0xF#4).toNat ≤ 1 := by
  obtain ⟨u, e, -, hflag, -⟩ := exec_writes_result_and_flag hexec
  cases e.symm.trans h
  exact hflag ▸ toNat_flagByte_le_one c

/-- Settles O32: VF is among the registers the instruction writes, as the flag of four instructions or as the operand of two. -/
theorem vfChangesOnlyByItsWriters : Obligations.VfChangesOnlyByItsWriters := by
  intro i s t h hvf
  have hwritten : 0xF#4 ∈ writtenRegs i := by_contra fun hnot => hvf (exec_changes_only_writtenRegs h _ hnot)
  cases i with
  | halt | cls | ret | jp | call | seImm | sneImm | seReg => cases hwritten
  | ldImm x kk =>
    obtain rfl := List.mem_singleton.1 hwritten
    exact .inr ⟨kk, .inl rfl⟩
  | addImm x kk =>
    obtain rfl := List.mem_singleton.1 hwritten
    exact .inr ⟨kk, .inr rfl⟩
  | addReg x y => exact .inl ⟨⟨x, y, .inl rfl⟩, toNat_vf_le_one_of_exec h rfl⟩
  | sub x y => exact .inl ⟨⟨x, y, .inr (.inl rfl)⟩, toNat_vf_le_one_of_exec h rfl⟩
  | subn x y => exact .inl ⟨⟨x, y, .inr (.inr (.inl rfl))⟩, toNat_vf_le_one_of_exec h rfl⟩
  | shl x y => exact .inl ⟨⟨x, y, .inr (.inr (.inr rfl))⟩, toNat_vf_le_one_of_exec h rfl⟩

/-! ### Faults -/

/-- A step that ends Faulted is fault entry for a cause, with what was fetched in the record. -/
theorem step_faulted_cases {s t : State} (hrun : s.status = .running) (h : step s = .next t) (ht : t.status = .faulted) :
    ∃ kind, FaultCause s kind ∧ t = s.raiseFault kind s.fetch := by
  rcases step_next_cases h with ⟨hne, -⟩ | ⟨-, hfault⟩ | ⟨-, _, _, -, -, -, hc⟩
  · exact absurd hrun hne
  · exact hfault
  · exact absurd ht (hc.status_ne_faulted hrun)

/-- Every fault has a kind. -/
theorem FaultCause.ne_noFault {s : State} {kind : FaultKind} (h : FaultCause s kind) : kind ≠ .noFault := by
  rintro rfl
  exact h

/-- Settles O35: the step is fault entry, and the opcode in the record is the fetched one. -/
theorem faultingStepCommitsNothing : Obligations.FaultingStepCommitsNothing := by
  intro s t hrun h ht
  obtain ⟨kind, hcause, rfl⟩ := step_faulted_cases hrun h ht
  refine ⟨rfl, rfl, hcause.ne_noFault, fun hvalid => ?_, fun hinvalid => ?_⟩
  · obtain ⟨op, hf⟩ := Option.isSome_iff_exists.1 hvalid
    simp [hf]
  · have hf : s.fetch = none := Option.isNone_iff_eq_none.1 (Option.isSome_eq_false_iff.1 hinvalid)
    simp [hf]

/-- The four causes of a fault, written out (60_exceptions.md R98, R99). -/
theorem exists_faultCause_iff (s : State) :
    (∃ kind, FaultCause s kind) ↔ s.fetch = none ∨ ∃ op, s.fetch = some op ∧
      (decodeWord op = none ∨ (decodeWord op = some .ret ∧ s.sp.val = 0) ∨
        ∃ nnn, decodeWord op = some (.call nnn) ∧ s.sp.val = 16) := by
  constructor
  · rintro ⟨kind, hcause⟩
    cases kind with
    | noFault => exact hcause.elim
    | addressOutOfRange => exact .inl hcause
    | unknownOpcode =>
      obtain ⟨op, hf, hd⟩ := hcause
      exact .inr ⟨op, hf, .inl hd⟩
    | stackUnderflow =>
      obtain ⟨hempty, op, hf, hd⟩ := hcause
      exact .inr ⟨op, hf, .inr (.inl ⟨hd, hempty⟩)⟩
    | stackOverflow =>
      obtain ⟨hfull, op, nnn, hf, hd⟩ := hcause
      exact .inr ⟨op, hf, .inr (.inr ⟨nnn, hd, hfull⟩)⟩
  · rintro (hf | ⟨op, hf, hd | ⟨hd, hempty⟩ | ⟨nnn, hd, hfull⟩⟩)
    · exact ⟨.addressOutOfRange, hf⟩
    · exact ⟨.unknownOpcode, op, hf, hd⟩
    · exact ⟨.stackUnderflow, hempty, op, hf, hd⟩
    · exact ⟨.stackOverflow, hfull, op, nnn, hf, hd⟩

/-- A step in Running ends Faulted exactly when the state had the cause of some fault. -/
theorem step_faulted_iff {s t : State} (hrun : s.status = .running) (h : step s = .next t) :
    t.status = .faulted ↔ ∃ kind, FaultCause s kind :=
  ⟨fun ht => ⟨_, step_faulted_cause hrun h ht⟩, fun ⟨kind, hcause⟩ => ((step_faults_iff_faultCause hrun h kind).2 hcause).1⟩

/-- Settles O37: a step faults exactly for a cause, and there are four. -/
theorem fourFaultCausesAndNoOther : Obligations.FourFaultCausesAndNoOther := fun s _ hrun h =>
  ⟨(step_faulted_iff hrun h).trans (exists_faultCause_iff s), step_faults_iff_faultCause hrun h .addressOutOfRange,
    step_faults_iff_faultCause hrun h .unknownOpcode⟩

/-! ### The run status -/

/-- Settles O38: outside Running a step is the same state; in Running it faults, or the fetched instruction completes, and of these only
HALT, whose one opcode is 0x0000, writes the status. -/
theorem runEndsOnlyByHaltOrFault : Obligations.RunEndsOnlyByHaltOrFault := by
  intro s t h
  have hhalt (hrun : s.status = .running) (hf : s.fetch = some 0x0000#16) : t.status = .halted := by
    cases (step_of_decode hrun hf (decodeWord_encode .halt)).symm.trans h
    rfl
  rcases step_next_cases h with ⟨hne, rfl⟩ | ⟨hrun, _, -, rfl⟩ | ⟨hrun, op, i, hf, hd, -, hc⟩
  · exact ⟨fun _ => rfl, fun hrun => absurd hrun hne⟩
  · refine ⟨absurd hrun, fun _ => ⟨by simp, fun ht => by simp at ht, hhalt hrun⟩⟩
  · have hstatus := hc.status
    rw [hrun] at hstatus
    refine ⟨absurd hrun, fun _ => ⟨by rw [hstatus]; split <;> decide, fun ht => ?_, hhalt hrun⟩⟩
    obtain rfl : i = .halt := by_contra fun hi => by simp [hstatus, hi] at ht
    rw [hf, decodeWord_eq_some_iff.1 hd]
    rfl

/-! ### The record of display-clear events -/

/-- `s` with `n` more display-clear events recorded. -/
def State.addClears (s : State) (n : Nat) : State := { s with displayClears := s.displayClears + n }

theorem State.skipIf_addClears (s : State) (n : Nat) (c : Bool) : (s.addClears n).skipIf c = (s.skipIf c).addClears n := by
  cases c <;> rfl

theorem State.push_addClears (s : State) (n : Nat) (v : Word) : (s.addClears n).push v = (s.push v).map (·.addClears n) := by
  by_cases h : s.sp.val < 16 <;> simp [State.push, State.addClears, h]

theorem State.pop_addClears (s : State) (n : Nat) : (s.addClears n).pop = s.pop.map fun p => (p.1, p.2.addClears n) := by
  by_cases h : 0 < s.sp.val <;> simp [State.pop, State.addClears, h]

theorem exec_ret_addClears {s t : State} (n : Nat) (h : exec .ret s = .next t) :
    exec .ret (s.addClears n) = .next (t.addClears n) := by
  have hpop : (s.addClears n).advance.pop = _ := s.advance.pop_addClears n
  simp only [exec, execRet, hpop] at h ⊢
  cases hp : s.advance.pop <;> (rw [hp] at h; cases h; rfl)

theorem exec_call_addClears {nnn : Addr} {s t : State} (n : Nat) (h : exec (.call nnn) s = .next t) :
    exec (.call nnn) (s.addClears n) = .next (t.addClears n) := by
  have hpush : (s.addClears n).advance.push (s.addClears n).advance.pc = _ := s.advance.push_addClears n s.advance.pc
  simp only [exec, execCall, hpush] at h ⊢
  cases hp : s.advance.push s.advance.pc <;> (rw [hp] at h; cases h; rfl)

/-- No instruction reads the record of display-clear events. -/
theorem exec_addClears {i : Instr} {s t : State} (n : Nat) (h : exec i s = .next t) :
    exec i (s.addClears n) = .next (t.addClears n) := by
  cases i with
  | halt | jp | ldImm | addImm | addReg | sub | subn | shl => cases h; rfl
  | cls =>
    cases h
    simp only [exec, execCls, State.emitDisplayClear, State.addClears, State.advance, State.setPc, Nat.add_right_comm]
  | seImm | sneImm | seReg =>
    cases h
    exact congrArg _ (s.advance.skipIf_addClears n _)
  | ret => exact exec_ret_addClears n h
  | call => exact exec_call_addClears n h

theorem step_addClears {s t : State} (n : Nat) (h : step s = .next t) : step (s.addClears n) = .next (t.addClears n) := by
  rcases step_cases s with ⟨hne, e⟩ | ⟨hrun, -, hf, e⟩ | ⟨op, hrun, -, hf, hd, e⟩ | ⟨op, i, hrun, -, hf, hd, e⟩ <;>
    rw [e] at h
  · cases h
    exact step_of_not_running hne
  · cases h
    exact step_of_fetch_none (s := s.addClears n) hrun hf
  · cases h
    exact step_of_unknown (s := s.addClears n) hrun hf hd
  · exact (step_of_decode (s := s.addClears n) hrun hf hd).trans (exec_addClears n h)

/-- Settles O40: no instruction reads the record, and of those that complete only CLS, whose one opcode is 0x00E0, writes it. -/
theorem displayRecordIsNeverRead : Obligations.DisplayRecordIsNeverRead := by
  intro s t n h
  refine ⟨step_addClears n h, ?_⟩
  rcases step_next_cases h with ⟨-, rfl⟩ | ⟨-, _, -, rfl⟩ | ⟨hrun, op, i, hf, hd, -, hc⟩
  · exact .inl rfl
  · exact .inl rfl
  · have hclears := hc.displayClears
    by_cases hi : i = .cls
    · subst hi
      exact .inr ⟨hrun, hf.trans (congrArg some (decodeWord_eq_some_iff.1 hd)), hclears⟩
    · exact .inl (hclears.trans (if_neg hi))

end Sys2Proof.Machine
end

section
/-! SUPPORT. The two invariants (40_fetch_execute_cycle.md R66): a state is legal after every step and every command, and pc stays at
most 0x1002 in every run without SkipAndContinue. Each part of a legal state has its own lemma for each way a state changes. -/

namespace Sys2Proof.Machine

/-! ### Addition to pc -/

/-- The address behind an instruction that was fetched. -/
theorem toNat_pc_add_two {pc : Word} (h : pc.toNat ≤ 0xFFE) : (pc + 2#16).toNat = pc.toNat + 2 :=
  BitVec.toNat_add_of_lt (y := 2#16) (by simp; omega)

/-- The address a skip goes to. -/
theorem toNat_pc_add_four {pc : Word} (h : pc.toNat ≤ 0xFFE) : (pc + 4#16).toNat = pc.toNat + 4 :=
  BitVec.toNat_add_of_lt (y := 4#16) (by simp; omega)

/-! ### The fault record -/

theorem recordLegal_iff_of_not_faulted {s : State} (h : s.status ≠ .faulted) : RecordLegal s ↔ s.fault = FaultRecord.zero := by
  rw [RecordLegal, if_neg h]

/-- A fault entered for its cause leaves a legal record. -/
theorem FaultCause.recordLegal {s : State} {kind : FaultKind} (h : FaultCause s kind) :
    RecordLegal (s.raiseFault kind s.fetch) := by
  rw [RecordLegal, if_pos (s.raiseFault_status kind s.fetch)]
  refine ⟨rfl, ?_⟩
  cases kind with
  | noFault => exact h
  | stackOverflow =>
    obtain ⟨hfull, op, nnn, hf, hd⟩ := h
    rw [hf]
    exact ⟨hfull, rfl, nnn, hd⟩
  | stackUnderflow =>
    obtain ⟨hempty, op, hf, hd⟩ := h
    rw [hf]
    exact ⟨hempty, rfl, hd⟩
  | unknownOpcode =>
    obtain ⟨op, hf, hd⟩ := h
    rw [hf]
    exact ⟨rfl, hd⟩
  | addressOutOfRange =>
    have hf : s.fetch = none := h
    have hpc : 0xFFF ≤ s.pc.toNat := by
      by_contra hlt
      cases (s.fetch_inRange (by omega)).symm.trans hf
    rw [hf]
    exact ⟨hpc, rfl, rfl⟩

/-- An instruction that completes keeps the zero record of a Running state. -/
theorem Completes.recordLegal {i : Instr} {s t : State} (hc : Completes i s t) (hrun : s.status = .running)
    (hs : RecordLegal s) : RecordLegal t := by
  rw [recordLegal_iff_of_not_faulted (hc.status_ne_faulted hrun), hc.fault]
  exact (recordLegal_iff_of_not_faulted (by simp [hrun])).1 hs

/-- In a Faulted state the record names pc, and after a failed fetch pc is out of range. -/
theorem RecordLegal.of_addressOutOfRange {s : State} (h : RecordLegal s) (hfaulted : s.status = .faulted)
    (hkind : s.fault.kind = .addressOutOfRange) : s.fault.addr = s.pc ∧ 0xFFF ≤ s.pc.toNat := by
  rw [RecordLegal, if_pos hfaulted, hkind] at h
  obtain ⟨haddr, hpc, -⟩ := h
  exact ⟨haddr, hpc⟩

/-! ### The stack entries -/

/-- CALL pushes the address behind itself, which is at most 0x1000; nothing else writes an entry. -/
theorem MovesStack.entries_le {i : Instr} {s t : State} (h : MovesStack i s t) (hpc : s.pc.toNat ≤ 0xFFE)
    (hs : ∀ j : Fin 16, (s.stack.get j).toNat ≤ 0x1000) (j : Fin 16) : (t.stack.get j).toNat ≤ 0x1000 := by
  cases i with
  | call nnn =>
    obtain ⟨-, -, hget⟩ := h
    rw [hget]
    split
    · rw [toNat_pc_add_two hpc]; omega
    · exact hs j
  | ret =>
    obtain ⟨_, -, -, -, hsame⟩ := h
    exact hsame ▸ hs j
  | halt | cls | jp | seImm | sneImm | seReg | ldImm | addImm | addReg | sub | subn | shl =>
    obtain ⟨-, hsame⟩ := h
    exact hsame ▸ hs j

/-! ### A legal state -/

theorem step_keeps_stateLegal {s t : State} (hs : StateLegal s) (h : step s = .next t) : StateLegal t := by
  obtain ⟨hwf, hrecord, hstack⟩ := hs
  rcases step_next_cases h with ⟨-, rfl⟩ | ⟨-, _, hcause, rfl⟩ | ⟨hrun, op, i, hf, -, -, hc⟩
  · exact ⟨hwf, hrecord, hstack⟩
  · exact ⟨hwf, hcause.recordLegal, hstack⟩
  · exact ⟨hc.mem ▸ hwf, hc.recordLegal hrun hrecord, hc.stack.entries_le (State.pc_le_of_fetch hf) hstack⟩

/-- Settles O43: a step is the same state, fault entry for a cause, or an instruction fetched in range that completes. -/
theorem stepKeepsTheStateLegal : Obligations.StepKeepsTheStateLegal := fun _ _ => step_keeps_stateLegal

theorem State.reset_legal : StateLegal State.reset := by
  refine ⟨rfl, (recordLegal_iff_of_not_faulted (by decide)).2 rfl, fun k => ?_⟩
  obtain ⟨-, -, hzero, -⟩ := resetZeroesTheCore
  simp [hzero]

/-- Settles O42: memory lists nothing, the record is zero, and so are the stack entries and pc. -/
theorem resetIsLegal : Obligations.ResetIsLegal := ⟨State.reset_legal, Nat.zero_le _⟩

theorem State.after_legal {s : State} (hs : StateLegal s) (c : Command) : StateLegal (s.after c) := by
  obtain ⟨hwf, hrecord, hstack⟩ := hs
  rcases s.after_cases c with e | ⟨-, e⟩ | ⟨base, bytes, -, -, hfit, e⟩ | ⟨-, hidle, e⟩ | ⟨-, h⟩ | ⟨-, -, e⟩
  · rw [e]; exact ⟨hwf, hrecord, hstack⟩
  · exact e ▸ State.reset_legal
  · exact e ▸ ⟨Memory.wf_writeBytes hwf base bytes hfit, hrecord, hstack⟩
  · have hzero : s.fault = FaultRecord.zero := (recordLegal_iff_of_not_faulted (by simp [hidle])).1 hrecord
    exact e ▸ ⟨hwf, (recordLegal_iff_of_not_faulted (by simp)).2 hzero, hstack⟩
  · exact step_keeps_stateLegal ⟨hwf, hrecord, hstack⟩ h
  · exact e ▸ ⟨hwf, (recordLegal_iff_of_not_faulted (by simp)).2 rfl, hstack⟩

/-- Settles O45: a command that does anything gives the reset state, writes an image that fits, starts from a zero record, makes a step,
or clears the record. -/
theorem commandsKeepTheStateLegal : Obligations.CommandsKeepTheStateLegal := fun _ c hs => State.after_legal hs c

/-! ### The range of pc -/

/-- Each source of pc is in range: at most 4 past a fetch in range, a 12-bit target, or a stack entry. -/
theorem SelectsPc.pcInRange {i : Instr} {s t : State} (h : SelectsPc i s t) (hpc : s.pc.toNat ≤ 0xFFE)
    (hs : ∀ j : Fin 16, (s.stack.get j).toNat ≤ 0x1000) : PcInRange t := by
  have htwo := toNat_pc_add_two hpc
  have hfour := toNat_pc_add_four hpc
  cases i with
  | halt | cls | ldImm | addImm | addReg | sub | subn | shl =>
    have hnext : t.pc = s.pc + 2#16 := h
    rw [PcInRange, hnext]; omega
  | seImm | sneImm | seReg =>
    simp only [SelectsPc] at h
    rw [PcInRange, h]
    split <;> omega
  | jp nnn =>
    have hnext : t.pc = nnn.setWidth 16 := h
    rw [PcInRange, hnext, toNat_setWidth_addr]; omega
  | call nnn =>
    obtain ⟨hnext, -⟩ := h
    rw [PcInRange, hnext, toNat_setWidth_addr]; omega
  | ret =>
    obtain ⟨k, -, hnext⟩ := h
    rw [PcInRange, hnext]
    exact (hs k).trans (by decide)

theorem step_keeps_pcInRange {s t : State} (hs : StateLegal s) (hpc : PcInRange s) (h : step s = .next t) : PcInRange t := by
  obtain ⟨-, -, hstack⟩ := hs
  rcases step_next_cases h with ⟨-, rfl⟩ | ⟨-, _, -, rfl⟩ | ⟨hrun, op, i, hf, -, hexec, hc⟩
  · exact hpc
  · exact hpc
  · exact (exec_selectsPc hexec (hc.status_ne_faulted hrun)).pcInRange (State.pc_le_of_fetch hf) hstack

/-- Settles O44: pc is held, or selected by an instruction fetched in range. -/
theorem stepKeepsThePcInRange : Obligations.StepKeepsThePcInRange := fun _ _ => step_keeps_pcInRange

theorem State.after_pcInRange {s : State} (hs : StateLegal s) (hpc : PcInRange s) {c : Command} (hskip : c ≠ .skipAndContinue) :
    PcInRange (s.after c) := by
  rcases s.after_cases c with e | ⟨-, e⟩ | ⟨_, _, -, -, -, e⟩ | ⟨-, -, e⟩ | ⟨-, h⟩ | ⟨rfl, -⟩
  · rw [e]; exact hpc
  · exact e ▸ Nat.zero_le _
  · exact e ▸ hpc
  · exact e ▸ hpc
  · exact step_keeps_pcInRange hs hpc h
  · exact absurd rfl hskip

/-- Both invariants hold of every state such a run reaches. -/
theorem RunReaches.legal {s : State} (h : RunReaches s) : StateLegal s ∧ PcInRange s := by
  induction h with
  | reset => exact resetIsLegal
  | command s c _ hskip ih =>
    obtain ⟨hs, hpc⟩ := ih
    exact ⟨State.after_legal hs c, State.after_pcInRange hs hpc hskip⟩

/-- Settles O46, by induction on the commands, with both invariants. -/
theorem runsKeepThePcInRange : Obligations.RunsKeepThePcInRange := by
  intro s h
  obtain ⟨⟨-, -, hstack⟩, hpc⟩ := h.legal
  exact ⟨hpc, hstack⟩

/-! ### Going on after a failed fetch -/

/-- Settles O52: the record names a pc of 0xFFF or more, and so does the pc two past it. -/
theorem skipAfterFetchFaultFaultsAgain : Obligations.SkipAfterFetchFaultFaultsAgain := by
  rintro s ⟨-, hrecord, -⟩ hfaulted hkind hwrap
  obtain ⟨haddr, hpc⟩ := hrecord.of_addressOutOfRange hfaulted hkind
  have hout : 0xFFF ≤ s.skipFault.pc.toNat := by
    rw [State.skipFault_pc, BitVec.toNat_add_of_lt (y := 2#16) hwrap, haddr]
    omega
  obtain ⟨t, h, hstatus, hfault, -⟩ := step_faults_of_pc_outOfRange s.skipFault_status hout
  rw [State.after_of_done (State.command_skip_of_faulted hfaulted)]
  exact ⟨t, h, hstatus, by rw [hfault], by rw [hfault, State.skipFault_pc, haddr]⟩

end Sys2Proof.Machine
end
